-- ==== Sys2Proof/Word.lean ====
section
/-! DEFINITION. The words of the DBA block: the widths of 00_scope.md R11 and 10_state.md R13, R14, each under the name
the spec gives its use. -/

namespace Sys2Proof

/-- One byte of the system memory SYS (R31, R36). -/
abbrev Byte := BitVec 8

/-- One Sample container, `CB = 16` bits (R11, R32, R34). -/
abbrev Sample := BitVec 16

/-- A byte address of SYS, `AW = 32` bits (R11, R31). -/
abbrev Addr := BitVec 32

/-- A count of Samples or a playback cursor, `LW = 32` bits (R11, R13). -/
abbrev Len := BitVec 32

/-- An index into a capture slot, `CAP_IW = 12` bits (R11, R14). -/
abbrev CapIndex := BitVec 12

/-- A slot number, 0 or 1 (R15): `false` is slot 0 and `true` is slot 1, so that the hot slot of a unit is the value
of its active selector. -/
abbrev Slot := Bool

/-- A pin identifier, 8 bits (R13, R24). -/
abbrev Pin := BitVec 8

/-- A sample rate in Samples per second, 32 bits (R56). -/
abbrev Rate := BitVec 32

/-- A clock frequency, 32 bits (R56). -/
abbrev Freq := BitVec 32

/-- The DC-offset accumulator, 32 bits (R25). -/
abbrev DcAcc := BitVec 32

/-- The word on the command port, format CMD, 96 bits (R54). -/
abbrev CmdWord := BitVec 96

/-- The tick port, format TCK, 1 bit (R57). -/
abbrev TickWord := BitVec 1

/-- The DMA port, format DMW, `dma_valid` above `dma_data`, 17 bits (R58). -/
abbrev DmaWord := BitVec 17

/-- The data of a response, 32 bits (R51). -/
abbrev RspData := BitVec 32

end Sys2Proof
end

