-- ==== Sys2Proof/Syntax.lean ====
section
/-! DEFINITION. The operations of the block (30_encoding.md R52), one constructor for each row of
spec/opcode_table.json, in the table's order, with the operands of R56 and R62. -/

namespace Sys2Proof

/-- One operation on the block: a command of APP, the timer's tick, or the DMA engine's beat (R9, R52). -/
inductive Instr where
  /-- `PB_BEGIN pin, rate [, clk]` (R72). `none` is an omitted `clk`; the operand 0 cannot be written (R63), so
  `some 0` is ill-formed (WellFormed.lean, log entry 8). -/
  | pbBegin (pin : Pin) (rate : Rate) (clk : Option Freq)
  /-- `PB_END` (R73). -/
  | pbEnd
  /-- `PB_SUBMIT ptr, len` (R78). -/
  | pbSubmit (ptr : Addr) (len : Len)
  /-- `PB_STAT` (R75). -/
  | pbStat
  /-- `CAP_BEGIN pin, rate` (R89). -/
  | capBegin (pin : Pin) (rate : Rate)
  /-- `CAP_END` (R90). -/
  | capEnd
  /-- `CAP_TAKE` (R92). -/
  | capTake
  /-- `CAP_STAT` (R94). -/
  | capStat
  /-- `CAP_RD slot, index` (R93). -/
  | capRd (slot : Slot) (index : CapIndex)
  /-- `PB_TICK`, issued by the timer (R74). -/
  | pbTick
  /-- `CAP_DMA_WR data`, issued by the DMA engine (R91). -/
  | capDmaWr (data : Sample)
deriving DecidableEq, Repr

end Sys2Proof
end

