-- ==== Sys2Proof/WellFormed.lean ====
section
/-! DEFINITION. Which operations can be written: the checks that the operand types do not already make. -/

namespace Sys2Proof

/-- A written `clk` operand is not 0: "A `clockFrequency` of 0 cannot be expressed: it assembles as "omitted"" (R63). -/
def clkWellFormed : Option Freq → Bool
  | none => true
  | some f => f != 0

/-- Every other operand is the whole unsigned value of its field (R56), so its type is its check: `pin` 8 bits, `rate`,
`ptr` and `len` 32 bits, `slot` 1 bit, `index` 12 bits ("an `index` above 4095 or a `slot` above 1 cannot be encoded",
R93), `data` 16 bits. -/
def Instr.wellFormed : Instr → Bool
  | .pbBegin _ _ clk => clkWellFormed clk
  | .pbEnd => true
  | .pbSubmit _ _ => true
  | .pbStat => true
  | .capBegin _ _ => true
  | .capEnd => true
  | .capTake => true
  | .capStat => true
  | .capRd _ _ => true
  | .pbTick => true
  | .capDmaWr _ => true

end Sys2Proof
end

