-- ==== Sys2Proof/Decode.lean ====
section
/-! DEFINITION. From the words on the three ports to operations and back: 30_encoding.md R54 to R58, R60, R61, R64. -/

namespace Sys2Proof

/-! ## Fields of a command word (R54) -/

/-- `op`, bits 7:0. -/
def cmdOp (w : CmdWord) : BitVec 8 := w.extractLsb' 0 8
/-- `pin`, bits 15:8. -/
def cmdPin (w : CmdWord) : Pin := w.extractLsb' 8 8
/-- `rsv`, bits 31:16. -/
def cmdRsv (w : CmdWord) : BitVec 16 := w.extractLsb' 16 16
/-- Operand A, bits 63:32. -/
def cmdA (w : CmdWord) : BitVec 32 := w.extractLsb' 32 32
/-- Operand B, bits 95:64. -/
def cmdB (w : CmdWord) : BitVec 32 := w.extractLsb' 64 32

/-- Operand A of `CAP_RD`: bits 31:13, which must be 0 (R56). -/
def capRdHigh (a : BitVec 32) : BitVec 19 := a.extractLsb' 13 19
/-- Operand A of `CAP_RD`: the slot, bit 12 (R56). -/
def capRdSlot (a : BitVec 32) : Slot := a.getLsbD 12
/-- Operand A of `CAP_RD`: the index, bits 11:0 (R56). -/
def capRdIndex (a : BitVec 32) : CapIndex := a.extractLsb' 0 12

/-- `clk` from operand B: 0 means omitted (R56). -/
def clkOfField (b : BitVec 32) : Option Freq := if b = 0 then none else some b

/-! ## What the ports carry -/

/-- One word on one port: the format says which port (R54, R57, R58). -/
inductive PortWord where
  /-- The command port, format CMD. -/
  | cmd (w : CmdWord)
  /-- The tick port, format TCK. -/
  | tck (b : TickWord)
  /-- The DMA port, format DMW. -/
  | dmw (d : DmaWord)
deriving DecidableEq, Repr

/-- Why a port word is no operation. The first three are the illegal encodings of R60; the block answers all of them
with the same `ILLEGAL` and records no cause (R101). -/
inductive NotAnOperation where
  /-- `rsv` is not 0. -/
  | reservedNonzero
  /-- `op` is not one of the nine values of R55. -/
  | unknownOpcode
  /-- A field the table of R55 shows as 0 for this `op` is not 0. -/
  | unusedFieldNonzero
  /-- `tick` or `dma_valid` is 0: nothing happens on that port in this step (R57, R58). -/
  | noEvent
deriving DecidableEq, Repr

/-! ## Decoding -/

/-- The operation `i`, if every field that must be 0 is 0 (R60). -/
def whenZero (unused : Bool) (i : Instr) : Except NotAnOperation Instr :=
  if unused then .ok i else .error .unusedFieldNonzero

/-- The decode algorithm of R64, total on all command words. -/
def decodeCmd (w : CmdWord) : Except NotAnOperation Instr :=
  if cmdRsv w ≠ 0 then .error .reservedNonzero
  else if cmdOp w = 0x01 then .ok (.pbBegin (cmdPin w) (cmdA w) (clkOfField (cmdB w)))
  else if cmdOp w = 0x02 then whenZero (cmdPin w == 0 && cmdA w == 0 && cmdB w == 0) .pbEnd
  else if cmdOp w = 0x03 then whenZero (cmdPin w == 0) (.pbSubmit (cmdA w) (cmdB w))
  else if cmdOp w = 0x04 then whenZero (cmdPin w == 0 && cmdA w == 0 && cmdB w == 0) .pbStat
  else if cmdOp w = 0x11 then whenZero (cmdB w == 0) (.capBegin (cmdPin w) (cmdA w))
  else if cmdOp w = 0x12 then whenZero (cmdPin w == 0 && cmdA w == 0 && cmdB w == 0) .capEnd
  else if cmdOp w = 0x13 then whenZero (cmdPin w == 0 && cmdA w == 0 && cmdB w == 0) .capTake
  else if cmdOp w = 0x14 then whenZero (cmdPin w == 0 && cmdA w == 0 && cmdB w == 0) .capStat
  else if cmdOp w = 0x15 then
    whenZero (cmdPin w == 0 && cmdB w == 0 && capRdHigh (cmdA w) == 0)
      (.capRd (capRdSlot (cmdA w)) (capRdIndex (cmdA w)))
  else .error .unknownOpcode

/-- The tick port: `tick = 1` is one `PB_TICK` (R57). -/
def decodeTick (b : TickWord) : Except NotAnOperation Instr :=
  if b = 1 then .ok .pbTick else .error .noEvent

/-- The DMA port: bit 16, `dma_valid`, is 1 for one `CAP_DMA_WR` of bits 15:0 (R58). -/
def decodeDma (d : DmaWord) : Except NotAnOperation Instr :=
  if d.getLsbD 16 then .ok (.capDmaWr (d.extractLsb' 0 16)) else .error .noEvent

/-- The operation a port word is, or why it is none. -/
def decode : PortWord → Except NotAnOperation Instr
  | .cmd w => decodeCmd w
  | .tck b => decodeTick b
  | .dmw d => decodeDma d

/-! ## Encoding -/

/-- A command word from its fields, `rsv = 0` (R54). -/
def cmdWord (op : BitVec 8) (pin : Pin) (a b : BitVec 32) : CmdWord := b ++ a ++ 0#16 ++ pin ++ op

/-- Operand B of `PB_BEGIN`: an omitted `clk` assembles as 0 (R56, R62). -/
def clkField : Option Freq → BitVec 32
  | none => 0
  | some f => f

/-- Operand A of `CAP_RD`: 19 zero bits, the slot, the index (R55). -/
def capRdField (slot : Slot) (index : CapIndex) : BitVec 32 := 0#19 ++ BitVec.ofBool slot ++ index

/-- The port and the word that carry an operation, from the opcode map of R55 and the formats of R57 and R58. -/
def encode : Instr → PortWord
  | .pbBegin pin rate clk => .cmd (cmdWord 0x01 pin rate (clkField clk))
  | .pbEnd => .cmd (cmdWord 0x02 0 0 0)
  | .pbSubmit ptr len => .cmd (cmdWord 0x03 0 ptr len)
  | .pbStat => .cmd (cmdWord 0x04 0 0 0)
  | .capBegin pin rate => .cmd (cmdWord 0x11 pin rate 0)
  | .capEnd => .cmd (cmdWord 0x12 0 0 0)
  | .capTake => .cmd (cmdWord 0x13 0 0 0)
  | .capStat => .cmd (cmdWord 0x14 0 0 0)
  | .capRd slot index => .cmd (cmdWord 0x15 0 (capRdField slot index) 0)
  | .pbTick => .tck 1
  | .capDmaWr data => .dmw (1#1 ++ data)

/-! ## The opcode table's numbering of bits -/

/-- The port word of `nbits` bits of value `w`. A row's width in whole bytes names its format: 1 byte for TCK (1 bit),
3 bytes for DMW (17 bits), 12 bytes for CMD (R61). A value with a bit above the format's own width is no word of that
format (log entry 11). -/
def portWordOfTable (nbits w : Nat) : Option PortWord :=
  if nbits ≤ 8 then if w < 2 ^ 1 then some (.tck (BitVec.ofNat 1 w)) else none
  else if nbits ≤ 24 then if w < 2 ^ 17 then some (.dmw (BitVec.ofNat 17 w)) else none
  else if w < 2 ^ 96 then some (.cmd (BitVec.ofNat 96 w)) else none

/-- The operation the decoder reads from a table word, `none` where it refuses. -/
def decodeTableWord (nbits w : Nat) : Option Instr :=
  match portWordOfTable nbits w with
  | none => none
  | some p => (decode p).toOption

end Sys2Proof
end

