-- ==== Sys2Proof/Config.lean ====
section
/-! DEFINITION. The implementation parameters of 00_scope.md R11, and the values the spec leaves open as constants
with no body: nothing in Lean can evaluate one, so a statement that mentions one holds for every value of it. -/

namespace Sys2Proof

/-- `CAP_N`: Samples in a capture slot (R11, R34). -/
@[simp] abbrev Config.capN : Nat := 4096

/-- `CAP_IW = log2 CAP_N`: the shift that divides by `CAP_N` (R11, R92). -/
@[simp] abbrev Config.capIw : Nat := 12

/-- `DC_SHIFT`: log2 of the DC accumulator's time constant in blocks (R11, R25). -/
@[simp] abbrev Config.dcShift : Nat := 4

/-- `SB`: the converter resolution in bits, a constant on a configuration output (R11, R59). The block never masks a
Sample to it (R35, R58). -/
abbrev Config.sb : Nat := 12

/-- `F_CLK_DEFAULT` (R11, U11): the frequency `PB_BEGIN` latches when `clk` is omitted. `OPEN` in the spec, so a free
value: log entry 7. -/
opaque Config.fClkDefault : Freq

/-- A byte of SYS whose contents the platform does not back or nobody has stated (R36, U1, U7): any value at each
read. The first argument is `State.sysReads`, which every read advances, so two reads of one address may differ. Free
value: log entry 4. -/
opaque Config.unbackedByte (reads : Nat) (addr : Addr) : Byte

/-- A container of `cap_mem` never written since reset (R29, U6): any value, the same one at every read until it is
written. The first argument is `State.resets`, so each reset may leave other contents. Free value: log entry 6. -/
opaque Config.capUnwritten (resets : Nat) (slot : Slot) (index : Nat) : Sample

end Sys2Proof
end

