-- ==== Sys2Proof/Machine/State.lean ====
section
/-! DEFINITION. All the state of the block (10_state.md R13, R14, R19), what its ports carry (30_encoding.md R53, R57 to
R59), the system memory it reads (20_memory.md R36), and its value after reset (10_state.md R29). Plain data. -/

namespace Sys2Proof.Machine

/-- The two slots of a buffer pair, numbered 0 and 1 (R15). -/
structure Pair (α : Type) where
  /-- Slot 0. -/
  slot0 : α
  /-- Slot 1. -/
  slot1 : α
deriving DecidableEq, Repr

/-- Sparse contents by address: (address, value) pairs, addresses strictly rising (`Store.wf` in Ops.lean). What an
unlisted address holds is said where a store is read: `memByte` for SYS, `capSample` for the capture slots. -/
abbrev Store (α : Type) := List (Nat × α)

/-- SYS, the system memory: a list of `Host.Cell` (R31, R36). -/
abbrev Memory := Store Byte

/-- The playback unit PB (R13). -/
structure PbUnit where
  /-- `pb_armed`: the periodic callback is armed. -/
  armed : Bool
  /-- `pb_active`: the active selector, the number of the hot slot. -/
  active : Slot
  /-- `pb_cursor`: the next output index within the hot buffer. -/
  cursor : Len
  /-- `pb_ptr[0]`, `pb_ptr[1]`: byte address of the first Sample of the buffer in the slot. -/
  ptr : Pair Addr
  /-- `pb_len[0]`, `pb_len[1]`: Samples in the buffer of the slot; 0 means the slot is empty. -/
  len : Pair Len
  /-- `pb_seen`: the value of `pb_active` captured at the last handoff (R17). -/
  seen : Slot
  /-- `pb_pin`: latched by `PB_BEGIN` (R24). -/
  pin : Pin
  /-- `pb_rate`: latched by `PB_BEGIN` (R24). -/
  rate : Rate
  /-- `pb_clk`: latched by `PB_BEGIN` (R24). -/
  clk : Freq
  /-- `dac_out`: the last value written to the converter output (R35). -/
  dacOut : Sample
deriving DecidableEq, Repr

/-- The capture unit CAP (R14). -/
structure CapUnit where
  /-- `cap_armed`: DMA filling is enabled. -/
  armed : Bool
  /-- `cap_active`: the active selector, the number of the slot being filled (hot). -/
  active : Slot
  /-- `cap_cursor`: the next index to be written in the hot slot. -/
  cursor : CapIndex
  /-- `cap_mem[0]`, `cap_mem[1]`: the containers written since reset, by index (R34). -/
  mem : Pair (Store Sample)
  /-- `cap_dc_acc`: the DC-offset accumulator, scaled by `2^DC_SHIFT` (R25). -/
  dcAcc : DcAcc
  /-- `cap_pin`: latched by `CAP_BEGIN` (R24). -/
  pin : Pin
  /-- `cap_rate`: latched by `CAP_BEGIN` (R24). -/
  rate : Rate
deriving DecidableEq, Repr

/-- The response codes (R51). Code 3 is never produced, so it has no name here. -/
inductive RspCode where
  /-- 0: the command is done. -/
  | ok
  /-- 1: a legal encoding whose operands are refused. -/
  | cfgErr
  /-- 2: the word is not a legal encoding. -/
  | illegal
deriving DecidableEq, Repr

/-- The response a command completes with (R51). -/
structure Response where
  /-- `rsp_code`. -/
  code : RspCode
  /-- `rsp_data`. -/
  data : RspData
deriving DecidableEq, Repr

/-- What the timer, the DMA engine and the platform drive during one step (R9, R57 to R59, R116). All defaults: a quiet
step. -/
structure HwMove where
  /-- `rst` is asserted (R116). -/
  rst : Bool := false
  /-- Stores into SYS, oldest first, that are visible to the block from this step on (R36, R48; log entry 5). -/
  stores : List (Addr × Byte) := []
  /-- The tick port (R57). -/
  tick : TickWord := 0
  /-- The DMA port (R58). -/
  dma : DmaWord := 0
deriving DecidableEq, Repr

/-- The machine: the two units, what their ports carry, the memory they read, and what the agents outside will do. -/
structure State where
  /-- The playback unit (R13). -/
  pb : PbUnit
  /-- The capture unit (R14). -/
  cap : CapUnit
  /-- The emission trace: the values emitted since reset, in order (R19). -/
  trace : List Sample
  /-- The response given in the last step, `none` if no command completed in it (R51, R53; log entry 3). -/
  rsp : Option Response
  /-- `mem_addr` of the read of SYS issued in the last step, if one was (R59; log entry 3). -/
  memAddr : Option Addr
  /-- The write strobe of `dac_out` in the last step (R59; log entry 3). -/
  dacStrobe : Bool
  /-- The command APP is presenting: `cmd_valid` with a stable `cmd_word` (R53; log entry 2). -/
  cmdPort : Option CmdWord
  /-- MODEL's own (log entry 1): APP's moves to come, the next first; `none` is a turn in which APP presents nothing. -/
  app : List (Option CmdWord)
  /-- MODEL's own (log entry 1): what the other agents drive in the steps to come, the next first. -/
  hw : List HwMove
  /-- SYS as far as its contents are known (R36; log entry 4). -/
  sys : Memory
  /-- MODEL's own (log entry 4): reads of SYS made so far, the argument of `Config.unbackedByte`. -/
  sysReads : Nat
  /-- MODEL's own (log entry 6): resets so far, the argument of `Config.capUnwritten`. -/
  resets : Nat
deriving DecidableEq, Repr

/-- The block has no fault channel: "The block never transfers control, saves no state on an error" (R100), and
93_implementation_defined.md treats none of its open points as a fault. No constructor: no one raises a fault. -/
inductive Fault where
deriving DecidableEq, Repr

/-- Why a step has no meaning. -/
inductive Refusal where
  /-- Raised by `exec` alone, for an instruction of the table with no meaning yet; safe, since nothing can be proved of
  a step that does not happen. No instruction of this model is left so. -/
  | notModelled (mnemonic : String)
deriving DecidableEq, Repr

/-- PB after reset (R29). -/
def PbUnit.reset : PbUnit where
  armed := false
  active := false
  cursor := 0
  ptr := ⟨0, 0⟩
  len := ⟨0, 0⟩
  seen := false
  pin := 0
  rate := 0
  clk := 0
  dacOut := 0

/-- CAP after reset (R29): nothing of `cap_mem` has been written, so every container holds an unspecified value
(log entry 6). -/
def CapUnit.reset : CapUnit where
  armed := false
  active := false
  cursor := 0
  mem := ⟨[], []⟩
  dcAcc := 0
  pin := 0
  rate := 0

/-- The machine right after reset (R29, R116): both units disarmed, all bits, cursors, descriptors and latches 0, the
trace empty, no command in progress; nothing known of SYS, and no agent with anything to do (log entries 1, 3, 4). -/
def State.reset : State where
  pb := PbUnit.reset
  cap := CapUnit.reset
  trace := []
  rsp := none
  memAddr := none
  dacStrobe := false
  cmdPort := none
  app := []
  hw := []
  sys := []
  sysReads := 0
  resets := 0

end Sys2Proof.Machine
end

