-- ==== Sys2Proof/Machine/Ops.lean ====
section
/-! DEFINITION. The operations every meaning is written over: the slots of a pair, sparse contents, reads of SYS, the
converter output, the capture containers, the response of a command, and the block's reset. -/

namespace Sys2Proof.Machine

/-! ## The two slots of a pair -/

/-- The content of slot `s` (R15). -/
def Pair.get {α : Type} (p : Pair α) (s : Slot) : α := if s then p.slot1 else p.slot0

/-- The pair with slot `s` holding `v`, the other slot as it was. -/
def Pair.set {α : Type} (p : Pair α) (s : Slot) (v : α) : Pair α :=
  if s then { p with slot1 := v } else { p with slot0 := v }

/-! ## Sparse contents -/

/-- The value listed for address `a`, if one is. -/
def Store.get {α : Type} : Store α → Nat → Option α
  | [], _ => none
  | (k, v) :: m, a => if a = k then some v else Store.get m a

/-- The contents with `v` at address `a`, kept in rising order of addresses. -/
def Store.set {α : Type} : Store α → Nat → α → Store α
  | [], a, v => [(a, v)]
  | (k, x) :: m, a, v =>
    if a < k then (a, v) :: (k, x) :: m
    else if a = k then (a, v) :: m
    else (k, x) :: Store.set m a v

/-- The addresses rise strictly, from `lo` up and below `bound`. -/
def Store.rises {α : Type} (bound : Nat) : Nat → Store α → Bool
  | _, [] => true
  | lo, (k, _) :: m => decide (lo ≤ k) && decide (k < bound) && Store.rises bound (k + 1) m

/-- The canonical form of contents with addresses below `bound`. An unlisted address has no value of its own, so no
listed value can equal it: equal contents are equal lists. -/
def Store.wf {α : Type} (bound : Nat) (m : Store α) : Bool := Store.rises bound 0 m

/-- The canonical form of SYS: byte addresses of `AW = 32` bits (R31). -/
def Memory.wf (m : Memory) : Bool := Store.wf (2 ^ 32) m

/-- The canonical form of a capture slot: indices below `CAP_N` (R34). -/
def capStoreWf (m : Store Sample) : Bool := Store.wf Config.capN m

/-! ## SYS -/

/-- The byte of SYS at address `a` as a read finds it now. Where nothing is known of the byte, any value (R36, U1, U7;
log entry 4). -/
def memByte (s : State) (a : Addr) : Byte :=
  match Store.get s.sys a.toNat with
  | some b => b
  | none => Config.unbackedByte s.sysReads a

/-- `MemRead(a, 2)`: little-endian, total, no fault (R36, R37). -/
def memRead (s : State) (a : Addr) : Sample := memByte s (a + 1) ++ memByte s a

/-- The read of address `a` goes out on the memory port (R59). It changes neither SYS nor the block (R39); the count
makes the free value of an unbacked byte a new one for the next read. -/
def issueRead (s : State) (a : Addr) : State :=
  { s with memAddr := some a, sysReads := s.sysReads + 1 }

/-- `MemWrite(a, 1, v)`. The block never uses it (R12, R33): it is how the platform's own stores reach SYS (log
entry 5). -/
def storeByte (m : Memory) (a : Addr) (v : Byte) : Memory := Store.set m a.toNat v

/-- A list of stores, oldest first. -/
def storeBytes (m : Memory) : List (Addr × Byte) → Memory
  | [] => m
  | (a, v) :: rest => storeBytes (storeByte m a v) rest

/-- The address of Sample `i` of the buffer at `ptr`: `(ptr + 2 * i) mod 2^AW`, with `2 * i` computed without loss
(R32, R41, R76). -/
def sampleAddr (ptr : Addr) (i : Len) : Addr := BitVec.ofNat 32 (ptr.toNat + 2 * i.toNat)

/-! ## The converter output -/

/-- `emit(v)`: `dac_out <- v` with its write strobe, and `v` appended to the trace (R12, R19, R35). The whole container,
not masked to `SB` bits. -/
def emit (s : State) (v : Sample) : State :=
  { s with pb := { s.pb with dacOut := v }, trace := s.trace ++ [v], dacStrobe := true }

/-! ## The capture slots -/

/-- The container `cap_mem[slot][i]` (R14). Never written since reset: any value, the same at every read (R29, U6; log
entry 6). -/
def capSample (s : State) (slot : Slot) (i : Nat) : Sample :=
  match Store.get (s.cap.mem.get slot) i with
  | some v => v
  | none => Config.capUnwritten s.resets slot i

/-- `cap_mem[slot][i] <- v`. -/
def capWrite (s : State) (slot : Slot) (i : Nat) (v : Sample) : State :=
  { s with cap := { s.cap with mem := s.cap.mem.set slot (Store.set (s.cap.mem.get slot) i v) } }

/-- Every container of a slot rewritten at once: container `i` becomes `f i` (R92). -/
def capRewrite (s : State) (slot : Slot) (f : Nat → Sample) : State :=
  { s with cap := { s.cap with mem := s.cap.mem.set slot ((List.range Config.capN).map fun i => (i, f i)) } }

/-! ## The DC filter (R92, R95) -/

/-- The DC estimate of an accumulator: `(acc >> DC_SHIFT)[15:0]` (R25). -/
def dcEstimate (acc : DcAcc) : Sample := (acc >>> Config.dcShift).setWidth 16

/-- The sum of `f` over the `2^k` indices from `lo` up, by halves: a sum of 4096 terms that is only 12 additions deep. -/
def sumPow (f : Nat → Nat) : Nat → Nat → Nat
  | 0, lo => f lo
  | k + 1, lo => sumPow f k lo + sumPow f k (lo + 2 ^ k)

/-- `sum`, over the `CAP_N = 2^CAP_IW` containers of a slot; exact, since it stays below `2^28` (R92, R95). -/
def slotSum (s : State) (slot : Slot) : Nat := sumPow (fun i => (capSample s slot i).toNat) Config.capIw 0

/-- `mean = sum >> CAP_IW` (R92). -/
def slotMean (s : State) (slot : Slot) : Nat := slotSum s slot >>> Config.capIw

/-- `acc' = acc - (acc >> DC_SHIFT) + mean`. -/
def dcNext (acc : DcAcc) (mean : Nat) : DcAcc := acc - (acc >>> Config.dcShift) + BitVec.ofNat 32 mean

/-! ## Completing a command -/

/-- `respond(code, data)`: the command completes and leaves the port (R12, R51, R53). -/
def respond (s : State) (code : RspCode) (data : RspData) : State :=
  { s with rsp := some ⟨code, data⟩, cmdPort := none }

/-- A refused command: accepted, no state of either unit changed, answered with its code and data 0. This is what the
block has in the place of an exception (R100, R101, R106): nothing is saved and control goes nowhere. -/
def refuseCommand (s : State) (code : RspCode) : State := respond s code 0

/-- `rsp_code` as the port carries it (R51). -/
def RspCode.bits : RspCode → BitVec 2
  | .ok => 0
  | .cfgErr => 1
  | .illegal => 2

/-! ## Reset -/

/-- A step with `rst` asserted (R116): every piece of the block's state takes its reset value, the stalled command is
discarded without a response, nothing is read or emitted. SYS and what the agents will do are outside the block (log
entry 12). -/
def resetBlock (s : State) : State :=
  { State.reset with app := s.app, hw := s.hw, sys := s.sys, sysReads := s.sysReads, resets := s.resets + 1 }

end Sys2Proof.Machine
end

