-- ==== Sys2Proof/Machine/Flags.lean ====
section
/-! DEFINITION. The block has no condition codes and no sticky flags (10_state.md R21). What APP can see of its
control state are the predicates of R18 and the status words of R22 and R23. -/

namespace Sys2Proof.Machine

/-- `pb_hot`: the slot TMR drains (R15, R18). -/
def pbHot (p : PbUnit) : Slot := p.active

/-- `pb_cold`: the other slot (R18). -/
def pbCold (p : PbUnit) : Slot := !p.active

/-- `pb_empty`: nothing to drain (R18). -/
def pbEmpty (p : PbUnit) : Bool := p.len.get (pbHot p) == 0

/-- `pb_full`: `PB_SUBMIT` must wait (R18). -/
def pbFull (p : PbUnit) : Bool := (p.seen == p.active) && !pbEmpty p

/-- `cap_hot`: the slot DMA fills (R18). -/
def capHot (c : CapUnit) : Slot := c.active

/-- `cap_cold`: the slot APP takes (R18). -/
def capCold (c : CapUnit) : Slot := !c.active

/-- The word `PB_STAT` returns, from bit 31: 27 zeros, `EMPTY`, `FULL`, `SEEN`, `ACTIVE`, `ARMED` (R22, R75). -/
def pbStatWord (p : PbUnit) : RspData :=
  0#27 ++ BitVec.ofBool (pbEmpty p) ++ BitVec.ofBool (pbFull p) ++ BitVec.ofBool p.seen
    ++ BitVec.ofBool p.active ++ BitVec.ofBool p.armed

/-- The word `CAP_STAT` returns, from bit 31: the DC estimate, 14 zeros, `ACTIVE`, `ARMED` (R23, R94). -/
def capStatWord (c : CapUnit) : RspData :=
  dcEstimate c.dcAcc ++ 0#14 ++ BitVec.ofBool c.active ++ BitVec.ofBool c.armed

/-- A slot number as response data: `zext_32(slot)` (R92). -/
def slotWord (s : Slot) : RspData := (BitVec.ofBool s).setWidth 32

/-- The configuration outputs to the collaborators outside the block (R59). -/
structure ConfigOutputs where
  /-- Starts and stops the periodic callback (R110). -/
  pbArmed : Bool
  /-- The output pin (R108). -/
  pbPin : Pin
  /-- With `pbClk`, what the timer derives its period from (R110). -/
  pbRate : Rate
  /-- See `pbRate`. -/
  pbClk : Freq
  /-- Starts and stops the DMA engine (R109). -/
  capArmed : Bool
  /-- The input pin (R109). -/
  capPin : Pin
  /-- The sampling rate (R109). -/
  capRate : Rate
  /-- The converter resolution, the constant `SB` (R59). -/
  resolution : Nat
deriving DecidableEq, Repr

/-- The configuration latches and armed bits as the collaborators see them (R24, R59). -/
def configOutputs (s : State) : ConfigOutputs where
  pbArmed := s.pb.armed
  pbPin := s.pb.pin
  pbRate := s.pb.rate
  pbClk := s.pb.clk
  capArmed := s.cap.armed
  capPin := s.cap.pin
  capRate := s.cap.rate
  resolution := Config.sb

end Sys2Proof.Machine
end

