-- ==== Sys2Proof/Machine/Operands.lean ====
section
/-! DEFINITION. What the operands of a command mean to the block, and which ones it refuses: 30_encoding.md R56 and
60_exceptions.md R101, R105. An operand is the unsigned value of its field; none is extended, scaled or shifted. -/

namespace Sys2Proof.Machine

/-- The two `begin` commands refuse a rate of 0, whose period does not exist (R72, R89, R101). -/
def rateRefused (rate : Rate) : Bool := rate == 0

/-- `PB_SUBMIT` refuses an empty buffer and a pointer that is not 2-byte aligned; a pointer of 0 is legal (R38, R40,
R78, R101). -/
def submitRefused (ptr : Addr) (len : Len) : Bool := len == 0 || ptr.getLsbD 0

/-- The frequency `PB_BEGIN` latches: the operand, or `F_CLK_DEFAULT` where it is 0, which means omitted (R56, R72). -/
def clkLatched (clk : Option Freq) : Freq := if clkField clk = 0 then Config.fClkDefault else clkField clk

end Sys2Proof.Machine
end

