-- ==== Sys2Proof/Machine/Capture.lean ====
section
/-! DEFINITION. The meanings of the CAP family: 41_capture_ops.md R89 to R95. -/

namespace Sys2Proof.Machine

/-- `CAP_BEGIN pin, rate` (R89). `cap_mem` is not written. -/
def execCapBegin (pin : Pin) (rate : Rate) (s : State) : Host.Outcome State Fault Refusal :=
  if rateRefused rate then .next (refuseCommand s .cfgErr)
  else
    .next (respond
      { s with cap := { s.cap with
          pin := pin, rate := rate, active := false, cursor := 0, dcAcc := 0, armed := true } } .ok 0)

/-- `CAP_END` (R90). -/
def execCapEnd (s : State) : Host.Outcome State Fault Refusal :=
  .next (respond { s with cap := { s.cap with armed := false } } .ok 0)

/-- `CAP_STAT` (R94). -/
def execCapStat (s : State) : Host.Outcome State Fault Refusal :=
  .next (respond s .ok (capStatWord s.cap))

/-- `CAP_RD slot, index` (R93): no ownership is checked. -/
def execCapRd (slot : Slot) (index : CapIndex) (s : State) : Host.Outcome State Fault Refusal :=
  .next (respond s .ok ((capSample s slot index.toNat).setWidth 32))

/-- The cursor and the selector after one beat: on to the next index, or, at `CAP_N`, back to 0 with the flip (R91). -/
def advanceFill (c : CapUnit) : CapUnit :=
  if c.cursor.toNat + 1 ≥ Config.capN then { c with cursor := 0, active := !c.active }
  else { c with cursor := c.cursor + 1 }

/-- One accepted beat: the write and the advance in one step (R91, R47). -/
def fillSample (s : State) (data : Sample) : State :=
  let w := capWrite s (capHot s.cap) s.cap.cursor.toNat data
  { w with cap := advanceFill w.cap }

/-- `CAP_DMA_WR data` (R91): dropped while disarmed; all 16 bits, unchecked. -/
def execCapDmaWr (data : Sample) (s : State) : Host.Outcome State Fault Refusal :=
  if !s.cap.armed then .next s else .next (fillSample s data)

/-- The accumulator after a take of the cold slot (R92). -/
def takeAcc (s : State) : DcAcc := dcNext s.cap.dcAcc (slotMean s (capCold s.cap))

/-- The cold slot corrected in place by the new estimate, and the new accumulator (R92). The difference wraps: a
corrected Sample is two's complement (R95). -/
def takeSlot (s : State) : State :=
  let c := capCold s.cap
  let w := capRewrite s c fun i => capSample s c i - dcEstimate (takeAcc s)
  { w with cap := { w.cap with dcAcc := takeAcc s } }

/-- `CAP_TAKE` (R92): never waits, works armed or not, answers the number of the slot it corrected. -/
def execCapTake (s : State) : Host.Outcome State Fault Refusal :=
  .next (respond (takeSlot s) .ok (slotWord (capCold s.cap)))

end Sys2Proof.Machine
end

