-- ==== Sys2Proof/Machine/Playback.lean ====
section
/-! DEFINITION. The meanings of the PB family: 40_playback_ops.md R72 to R76 and R78. -/

namespace Sys2Proof.Machine

/-- `PB_BEGIN pin, rate [, clk]` (R72). `pb_ptr`, `dac_out` and the trace are not written. -/
def execPbBegin (pin : Pin) (rate : Rate) (clk : Option Freq) (s : State) : Host.Outcome State Fault Refusal :=
  if rateRefused rate then .next (refuseCommand s .cfgErr)
  else
    .next (respond
      { s with pb := { s.pb with
          pin := pin, rate := rate, clk := clkLatched clk,
          active := true, cursor := 0, len := ⟨0, 0⟩, seen := false, armed := true } } .ok 0)

/-- `PB_END` (R73). -/
def execPbEnd (s : State) : Host.Outcome State Fault Refusal :=
  .next (respond { s with pb := { s.pb with armed := false } } .ok 0)

/-- `PB_STAT` (R75). -/
def execPbStat (s : State) : Host.Outcome State Fault Refusal :=
  .next (respond s .ok (pbStatWord s.pb))

/-- The unit with a buffer installed in `slot` and `pb_seen` set (the writes of R78). -/
def installBuffer (p : PbUnit) (slot : Slot) (ptr : Addr) (len : Len) (seen : Slot) : PbUnit :=
  { p with ptr := p.ptr.set slot ptr, len := p.len.set slot len, seen := seen }

/-- What an accepted handoff does to the unit: a prime of the empty hot slot, or the steady-state handoff into the cold
slot (R78 step 3). -/
def handoff (p : PbUnit) (ptr : Addr) (len : Len) : PbUnit :=
  if pbEmpty p then installBuffer p (pbHot p) ptr len (!p.active)
  else installBuffer p (pbCold p) ptr len p.active

/-- `PB_SUBMIT ptr, len` (R78): the operand checks, then the handshake, then the handoff. While `pb_full` the command
is not ready: it takes no step and stays on the port (R10, R53). -/
def execPbSubmit (ptr : Addr) (len : Len) (s : State) : Host.Outcome State Fault Refusal :=
  if submitRefused ptr len then .next (refuseCommand s .cfgErr)
  else if pbFull s.pb then .next s
  else .next (respond { s with pb := handoff s.pb ptr len } .ok 0)

/-- The address of the next Sample to emit (R74, R76). -/
def tickAddr (p : PbUnit) : Addr := sampleAddr (p.ptr.get (pbHot p)) p.cursor

/-- The cursor and the selector after one Sample: on to the next index, or, at the hot buffer's length, back to 0 with
the flip. `pb_cursor + 1` is compared without truncation (R74, R76). -/
def advanceCursor (p : PbUnit) : PbUnit :=
  if p.cursor.toNat + 1 ≥ (p.len.get (pbHot p)).toNat then { p with cursor := 0, active := !p.active }
  else { p with cursor := p.cursor + 1 }

/-- One non-idle tick: read, emit, advance, in one step (R74). -/
def drainSample (s : State) : State :=
  let a := tickAddr s.pb
  let e := emit (issueRead s a) (memRead s a)
  { e with pb := advanceCursor e.pb }

/-- `PB_TICK` (R74): dropped while disarmed, idle while the hot slot is empty. -/
def execPbTick (s : State) : Host.Outcome State Fault Refusal :=
  if !s.pb.armed then .next s
  else if pbEmpty s.pb then .next s
  else .next (drainSample s)

end Sys2Proof.Machine
end

