-- ==== Sys2Proof/Machine/Dispatch.lean ====
section
/-! DEFINITION. One arm for each operation of opcode_table.json. -/

namespace Sys2Proof.Machine

def exec (i : Instr) (s : State) : Host.Outcome State Fault Refusal :=
  match i with
  | .pbBegin pin rate clk => Sys2Proof.Machine.execPbBegin pin rate clk s
  | .pbEnd => Sys2Proof.Machine.execPbEnd s
  | .pbSubmit ptr len => Sys2Proof.Machine.execPbSubmit ptr len s
  | .pbStat => Sys2Proof.Machine.execPbStat s
  | .capBegin pin rate => Sys2Proof.Machine.execCapBegin pin rate s
  | .capEnd => Sys2Proof.Machine.execCapEnd s
  | .capTake => Sys2Proof.Machine.execCapTake s
  | .capStat => Sys2Proof.Machine.execCapStat s
  | .capRd slot index => Sys2Proof.Machine.execCapRd slot index s
  | .pbTick => Sys2Proof.Machine.execPbTick s
  | .capDmaWr data => Sys2Proof.Machine.execCapDmaWr data s

end Sys2Proof.Machine
end

