-- ==== Sys2Proof/Machine/Ports.lean ====
section
/-! DEFINITION. From what the agents drive on the ports to the operations of one step: 30_encoding.md R53, R57, R58,
60_exceptions.md R103, R104, R111, 70_reset_and_hazards.md R116. -/

namespace Sys2Proof.Machine

/-- Run `f` on the state `o` goes on with. -/
def andThen (o : Host.Outcome State Fault Refusal) (f : State → Host.Outcome State Fault Refusal) :
    Host.Outcome State Fault Refusal :=
  match o with
  | .next s => f s
  | .fault r => .fault r
  | .refused r => .refused r

/-- What TMR, DMA, the platform and the reset pin drive in the coming step; nothing once their list is at its end. -/
def currentMove (s : State) : HwMove := s.hw.headD {}

/-- The output signals of a step begin with no response, no read and no strobe (log entry 3). -/
def clearOutputs (s : State) : State := { s with rsp := none, memAddr := none, dacStrobe := false }

/-- The platform's stores of this step are in SYS from here on (R36; log entry 5). -/
def takeHwMove (s : State) : State :=
  { s with hw := s.hw.tail, sys := storeBytes s.sys (currentMove s).stores }

/-- APP keeps presenting a command that was not accepted, and has no other move until it is (R53, U9); with the port free
it makes its next move, which may be to present nothing. -/
def presentCommand (s : State) : State :=
  match s.cmdPort with
  | some _ => s
  | none => { s with cmdPort := s.app.headD none, app := s.app.tail }

/-- The tick port in this step (R57). -/
def runTick (b : TickWord) (s : State) : Host.Outcome State Fault Refusal :=
  match decodeTick b with
  | .ok i => exec i s
  | .error _ => .next s

/-- The DMA port in this step (R58). -/
def runDma (d : DmaWord) (s : State) : Host.Outcome State Fault Refusal :=
  match decodeDma d with
  | .ok i => exec i s
  | .error _ => .next s

/-- The command port in this step (R53): a word that is no legal encoding is accepted at once and answers `ILLEGAL`
(R60); any other runs as the command it decodes to, which is also where a `PB_SUBMIT` finds out that it must wait. -/
def runCommand (s : State) : Host.Outcome State Fault Refusal :=
  match s.cmdPort with
  | none => .next s
  | some w =>
    match decodeCmd w with
    | .ok i => exec i s
    | .error _ => .next (refuseCommand s .illegal)

/-- `cmd_ready` for a presented word: 0 if and only if the word decodes to a `PB_SUBMIT` that passes its operand checks
and `pb_full` holds (R53). -/
def cmdReady (s : State) (w : CmdWord) : Bool :=
  match decodeCmd w with
  | .ok (.pbSubmit ptr len) => submitRefused ptr len || !pbFull s.pb
  | _ => true

/-- The operations of a step without reset, one after another on the state the one before left: the tick, the beat, the
command (R104). -/
def runPorts (h : HwMove) (s : State) : Host.Outcome State Fault Refusal :=
  andThen (runTick h.tick s) fun s₁ => andThen (runDma h.dma s₁) runCommand

/-- The state in which the operations of a step begin: no output signals yet, the inputs of the step taken, APP's command
on the port. Nothing of the two units has changed. -/
def stepStart (s : State) : State := presentCommand (takeHwMove (clearOutputs s))

/-- One step. While `rst` is asserted no command is accepted and both event ports are ignored (R116). -/
def runStep (s : State) : Host.Outcome State Fault Refusal :=
  if (currentMove s).rst then .next (resetBlock (takeHwMove (clearOutputs s)))
  else runPorts (currentMove s) (stepStart s)

/-- `s` with a table word on the port of its format, and nothing else happening in the next step (log entry 1). This is
the host's way of placing a word, no move of an agent and no step of the machine. DESIGN CHOICE (log entries 1, 2): where a
`PB_SUBMIT` is waiting on the command port of `s`, the placing drops it without effect or response, replaced by the placed
command or cleared for a placed tick or beat, so that the next step runs the placed word alone. The spec leaves withdrawing
or changing a blocked command undefined (R53, U9); after reset no command is waiting and nothing is dropped. -/
def placeWord (s : State) (nbits w : Nat) : State :=
  if nbits ≤ 8 then
    { s with cmdPort := none, app := none :: s.app, hw := { tick := BitVec.ofNat 1 w } :: s.hw }
  else if nbits ≤ 24 then
    { s with cmdPort := none, app := none :: s.app, hw := { dma := BitVec.ofNat 17 w } :: s.hw }
  else { s with cmdPort := some (BitVec.ofNat 96 w), hw := {} :: s.hw }

end Sys2Proof.Machine
end

