-- ==== Sys2Proof/Machine/Step.lean ====
section
/-! DEFINITION. The step, and how a word of the opcode table is put where the next step finds it. -/

namespace Sys2Proof.Machine

/-- One step of the machine (D2, R104). -/
def step (s : State) : Host.Outcome State Fault Refusal := Sys2Proof.Machine.runStep s

/-- `s` with the instruction of the table's word `w` on its port, so that the next step runs exactly it. A command
waiting on the port of `s` is dropped by the placing: DESIGN CHOICE, log entries 1 and 2. -/
def State.withFetchWord (s : State) (nbits w : Nat) : State := Sys2Proof.Machine.placeWord s nbits w

end Sys2Proof.Machine
end

