-- ==== Sys2Proof/Safety.lean ====
section
/-! DEFINITION. The invariants of 10_state.md R27 and R28 as predicates of one state, and runs of operations and of
steps, in the terms the statements use. -/

namespace Sys2Proof.Machine

/-! ## Invariants -/

/-- What holds of the playback unit after reset and after every operation (R27).
PB-I1: an empty hot slot has cursor 0. PB-I2: in a non-empty one the cursor is below the length. R38: the pointer of a
slot is even. PB-I4, while armed: slot 1 is filled first; a unit whose slot 1 is empty has slot 1 hot and slot 0 empty
(the second half is what makes the first one last). R18: where `pb_seen` equals the selector and the hot slot holds a
buffer, so does the other slot, pending or stale. -/
abbrev PbUnit.Inv (p : PbUnit) : Prop :=
  (p.len.get p.active = 0 → p.cursor = 0) ∧
  (p.len.get p.active ≠ 0 → p.cursor < p.len.get p.active) ∧
  (p.ptr.slot0.getLsbD 0 = false ∧ p.ptr.slot1.getLsbD 0 = false) ∧
  (p.armed = true → p.len.slot1 = 0 → p.active = true ∧ p.len.slot0 = 0) ∧
  (p.seen = p.active → p.len.get p.active ≠ 0 → p.len.get (!p.active) ≠ 0)

/-- What holds of the capture unit after reset and after every operation (R28). CAP-I4: the accumulator is below
`2^(CB + DC_SHIFT)`. Both slots are in canonical form. -/
abbrev CapUnit.Inv (c : CapUnit) : Prop :=
  c.dcAcc.toNat < 2 ^ 20 ∧ capStoreWf c.mem.slot0 = true ∧ capStoreWf c.mem.slot1 = true

/-- The invariant of the machine: both units', SYS in canonical form, and `dac_out` the last value of the trace (0 where
nothing has been emitted since reset: R13, R19, R29). -/
abbrev State.Inv (s : State) : Prop :=
  s.pb.Inv ∧ s.cap.Inv ∧ s.sys.wf = true ∧ s.pb.dacOut = s.trace.getLastD 0

/-- The operations of the playback unit (R2, R71: bit 4 of `op` is 0 in R55, or the tick port). -/
def isPlayback : Instr → Bool
  | .pbBegin _ _ _ => true
  | .pbEnd => true
  | .pbSubmit _ _ => true
  | .pbStat => true
  | .pbTick => true
  | .capBegin _ _ => false
  | .capEnd => false
  | .capTake => false
  | .capStat => false
  | .capRd _ _ => false
  | .capDmaWr _ => false

/-! ## Runs -/

/-- The operations of a list, one after another, each on the state the one before left (R10). -/
def execAll : List Instr → State → Host.Outcome State Fault Refusal
  | [], s => .next s
  | i :: is, s => andThen (exec i s) (execAll is)

/-- `n` steps of the machine. -/
def runSteps : Nat → State → Host.Outcome State Fault Refusal
  | 0, s => .next s
  | n + 1, s => andThen (step s) (runSteps n)

/-- `n` ticks. -/
def ticks (n : Nat) : List Instr := List.replicate n .pbTick

/-- The beats that carry these Samples, in order. -/
def beats (xs : List Sample) : List Instr := xs.map .capDmaWr

/-- `n` rounds of one whole fill of the constant `k` and one take of it (the schedule of R97). -/
def captureRounds (k : Sample) : Nat → List Instr
  | 0 => []
  | n + 1 => beats (List.replicate Config.capN k) ++ [.capTake] ++ captureRounds k n

/-- The buffer at `(ptr, len)` holds exactly the Samples `xs` in SYS (R32, R37), and may be submitted (R78). -/
def holdsBuffer (m : Memory) (ptr : Addr) (xs : List Sample) : Prop :=
  ptr.getLsbD 0 = false ∧ 0 < xs.length ∧ xs.length < 2 ^ 32 ∧
  ∀ i x, xs[i]? = some x →
    Store.get m (sampleAddr ptr (BitVec.ofNat 32 i)).toNat = some (x.extractLsb' 0 8) ∧
    Store.get m (sampleAddr ptr (BitVec.ofNat 32 i) + 1).toNat = some (x.extractLsb' 8 8)

/-- The command that hands over the buffer of the Samples `xs` at `ptr`. -/
def submitOf (b : Addr × List Sample) : Instr := .pbSubmit b.1 (BitVec.ofNat 32 b.2.length)

/-- The schedule of R82 with `hot` in the hot slot at index 0: each further buffer is submitted as soon as the one
before it has become hot, and then the hot buffer drains. -/
def playRest (hot : Addr × List Sample) : List (Addr × List Sample) → List Instr
  | [] => ticks hot.2.length
  | b :: bs => submitOf b :: (ticks hot.2.length ++ playRest b bs)

end Sys2Proof.Machine
end

