-- ==== Sys2Proof/Certificates/Slice0/Obligations.lean ====
section
/-! DEFINITION. The statements for the provers. Each docstring names the rule of spec/ it formalises. -/

open Sys2Proof Sys2Proof.Machine

/-! ## Encodings (30_encoding.md) -/

/-- R54 to R58, R63: a well-formed operation is what its encoding decodes to, on every port. -/
def Obligations.DecodeOfEncodeIsIdentity : Prop :=
  ∀ i : Instr, i.wellFormed = true → decode (encode i) = .ok i

/-- R60, R64: no two words decode to one operation, and what is decoded is well-formed. -/
def Obligations.EncodeOfDecodeIsIdentity : Prop :=
  ∀ (p : PortWord) (i : Instr), decode p = .ok i → i.wellFormed = true ∧ encode i = p

/-- R65: a word is a row's operation exactly when `w & mask = match`, for the eleven rows. -/
def Obligations.RowsAreTheirMaskAndMatch : Prop :=
  (∀ w : CmdWord,
    ((∃ pin rate clk, decodeCmd w = .ok (.pbBegin pin rate clk)) ↔ w &&& 0x0000000000000000FFFF00FF = 0x01) ∧
    (decodeCmd w = .ok .pbEnd ↔ w &&& 0xFFFFFFFFFFFFFFFFFFFFFFFF = 0x02) ∧
    ((∃ ptr len, decodeCmd w = .ok (.pbSubmit ptr len)) ↔ w &&& 0x0000000000000000FFFFFFFF = 0x03) ∧
    (decodeCmd w = .ok .pbStat ↔ w &&& 0xFFFFFFFFFFFFFFFFFFFFFFFF = 0x04) ∧
    ((∃ pin rate, decodeCmd w = .ok (.capBegin pin rate)) ↔ w &&& 0xFFFFFFFF00000000FFFF00FF = 0x11) ∧
    (decodeCmd w = .ok .capEnd ↔ w &&& 0xFFFFFFFFFFFFFFFFFFFFFFFF = 0x12) ∧
    (decodeCmd w = .ok .capTake ↔ w &&& 0xFFFFFFFFFFFFFFFFFFFFFFFF = 0x13) ∧
    (decodeCmd w = .ok .capStat ↔ w &&& 0xFFFFFFFFFFFFFFFFFFFFFFFF = 0x14) ∧
    ((∃ slot index, decodeCmd w = .ok (.capRd slot index)) ↔ w &&& 0xFFFFFFFFFFFFE000FFFFFFFF = 0x15)) ∧
  (∀ b : TickWord, decodeTick b = .ok .pbTick ↔ b &&& 1 = 1) ∧
  (∀ d : DmaWord, (∃ data, decodeDma d = .ok (.capDmaWr data)) ↔ d &&& 0x10000 = 0x10000)

/-- 95_test_vectors.md V-E2, V-E4, V-E6, V-E11, V-E13, V-E23, V-E25, V-E27, as words written out. The last
three are no operation (R60); the sub-cause each is refused with is the model's own name, not the spec's (DESIGN CHOICE, log
entry 16). -/
def Obligations.WrittenOutWordsDecode : Prop :=
  decodeCmd 0x02DC6C000000AC4400000001 = .ok (.pbBegin 0 44100 (some 48000000)) ∧
  decodeCmd 0x000000032000010000000003 = .ok (.pbSubmit 0x20000100 3) ∧
  decodeCmd 0x000000000000AC4400000311 = .ok (.capBegin 3 44100) ∧
  decodeCmd 0x0000000000001FFF00000015 = .ok (.capRd true 4095) ∧
  decodeDma 0x10800 = .ok (.capDmaWr 0x0800) ∧
  decodeCmd 0x0000000000001F4000010B01 = .error .reservedNonzero ∧
  decodeCmd 0x000000032000010000000103 = .error .unusedFieldNonzero ∧
  decodeCmd 0x000000000000200000000015 = .error .unusedFieldNonzero

/-- R60: which words are legal; any other is accepted at once, changes no state and responds `ILLEGAL` with data 0. -/
def Obligations.IllegalWordsAnswerIllegal : Prop :=
  (∀ w : CmdWord, (∃ i, decodeCmd w = .ok i) ↔
    w.extractLsb' 16 16 = 0 ∧
    let op := w.extractLsb' 0 8; let pin := w.extractLsb' 8 8; let a := w.extractLsb' 32 32; let b := w.extractLsb' 64 32
    (op = 0x01 ∨ (op = 0x03 ∧ pin = 0) ∨ (op = 0x11 ∧ b = 0) ∨
      ((op = 0x02 ∨ op = 0x04 ∨ op = 0x12 ∨ op = 0x13 ∨ op = 0x14) ∧ pin = 0 ∧ a = 0 ∧ b = 0) ∨
      (op = 0x15 ∧ pin = 0 ∧ a.extractLsb' 13 19 = 0 ∧ b = 0))) ∧
  (∀ (s : State) (w : CmdWord), s.cmdPort = some w → (¬ ∃ i, decodeCmd w = .ok i) →
    cmdReady s w = true ∧
    runCommand s = .next { s with rsp := some ⟨.illegal, 0⟩, cmdPort := none })

/-! ## Steps -/

/-- R10, R53, R57, R58: what is on one port runs as the operation it decodes to. `stepStart` is the state the operation
starts in: the outputs of the step before cleared (log entry 3), the inputs of this step taken (log entry 1). -/
def Obligations.StepRunsTheDecodedInstruction : Prop :=
  ∀ s : State, (currentMove s).rst = false →
    (∀ w i, (currentMove s).tick = 0 → (currentMove s).dma.getLsbD 16 = false → (stepStart s).cmdPort = some w →
      decodeCmd w = .ok i → step s = exec i (stepStart s)) ∧
    (∀ i, decodeTick (currentMove s).tick = .ok i → (currentMove s).dma.getLsbD 16 = false → (stepStart s).cmdPort = none →
      step s = exec i (stepStart s)) ∧
    (∀ i, (currentMove s).tick = 0 → decodeDma (currentMove s).dma = .ok i → (stepStart s).cmdPort = none →
      step s = exec i (stepStart s)) ∧
    stepStart s = { s with
      rsp := none, memAddr := none, dacStrobe := false, hw := s.hw.tail,
      sys := storeBytes s.sys (currentMove s).stores,
      cmdPort := if s.cmdPort = none then s.app.headD none else s.cmdPort,
      app := if s.cmdPort = none then s.app.tail else s.app }

/-- R104: events of one step are applied one after another, the tick, the beat, the command, each on the state the one
before left; so a `PB_SUBMIT` waiting on a flip is accepted in the step of the flipping tick. -/
def Obligations.SimultaneousEventsGoInOrder : Prop :=
  (∀ s : State, (currentMove s).rst = false →
    ∃ s₁ s₂ : State,
      (if (currentMove s).tick = 1 then exec .pbTick (stepStart s) = .next s₁ else s₁ = stepStart s) ∧
      (if (currentMove s).dma.getLsbD 16 = true then exec (.capDmaWr ((currentMove s).dma.extractLsb' 0 16)) s₁ = .next s₂
        else s₂ = s₁) ∧
      (∀ w i, (stepStart s).cmdPort = some w → decodeCmd w = .ok i → step s = exec i s₂) ∧
      (∀ w, (stepStart s).cmdPort = some w → (¬ ∃ i, decodeCmd w = .ok i) →
        step s = .next { s₂ with rsp := some ⟨.illegal, 0⟩, cmdPort := none }) ∧
      ((stepStart s).cmdPort = none → step s = .next s₂)) ∧
  (∀ (s : State) (w : CmdWord) (ptr : Addr) (len : Len), (currentMove s).rst = false → (currentMove s).tick = 1 →
    s.cmdPort = some w → decodeCmd w = .ok (.pbSubmit ptr len) → len ≠ 0 → ptr.getLsbD 0 = false →
    s.pb.armed = true → pbFull s.pb = true → (s.pb.len.get s.pb.active).toNat ≤ s.pb.cursor.toNat + 1 →
    ∃ t, step s = .next t ∧ t.cmdPort = none ∧ t.rsp = some ⟨.ok, 0⟩)

/-- R100: no operation and no step traps or stops; every one answers a next state. -/
def Obligations.EveryStepGoesOn : Prop :=
  (∀ (i : Instr) (s : State), ∃ t, exec i s = .next t) ∧ (∀ s : State, ∃ t, step s = .next t)

/-- R53: `cmd_ready`, and that a command is accepted, with its response, exactly when it is ready; while it is not, the
state does not change on APP's account and APP goes on presenting it. -/
def Obligations.CommandsAreAcceptedWhenReady : Prop :=
  ∀ (s : State) (w : CmdWord), s.cmdPort = some w →
    (cmdReady s w = false ↔
      ∃ ptr len, decodeCmd w = .ok (.pbSubmit ptr len) ∧ len ≠ 0 ∧ ptr.getLsbD 0 = false ∧ pbFull s.pb = true) ∧
    (cmdReady s w = true → ∃ t r, runCommand s = .next t ∧ t.cmdPort = none ∧ t.rsp = some r) ∧
    (cmdReady s w = false → runCommand s = .next s) ∧
    (stepStart s).cmdPort = some w ∧ (stepStart s).app = s.app

/-- R53, R71: a command that is still on the port after a step is a `PB_SUBMIT` that is not ready; nothing else waits. -/
def Obligations.OnlyAFullSubmitStaysOnThePort : Prop :=
  ∀ (s t : State) (w : CmdWord), step s = .next t → t.cmdPort = some w → cmdReady t w = false ∧ t.rsp = none

/-! ## Reset (70_reset_and_hazards.md) -/

/-- R116: a step with `rst` asserted. No command is accepted and none responds, tick and beat are ignored, nothing is read
or emitted, the stalled command is gone, and every piece of state has its reset value. -/
def Obligations.ResetPinClearsTheBlock : Prop :=
  ∀ s : State, (currentMove s).rst = true → ∃ t, step s = .next t ∧
    t.pb = { armed := false, active := false, cursor := 0, ptr := ⟨0, 0⟩, len := ⟨0, 0⟩, seen := false, pin := 0, rate := 0,
             clk := 0, dacOut := 0 } ∧
    t.cap.armed = false ∧ t.cap.active = false ∧ t.cap.cursor = 0 ∧ t.cap.dcAcc = 0 ∧ t.cap.pin = 0 ∧ t.cap.rate = 0 ∧
    t.trace = [] ∧ t.rsp = none ∧ t.cmdPort = none ∧ t.memAddr = none ∧ t.dacStrobe = false

/-- R29, the column "after reset", and with it what the model chooses where the spec gives nothing: no word on a port,
nothing known of SYS, no agent with a move to make (log entries 1, 3, 4, 6). -/
def Obligations.ResetStateHasTheResetValues : Prop :=
  State.reset.pb = { armed := false, active := false, cursor := 0, ptr := ⟨0, 0⟩, len := ⟨0, 0⟩, seen := false, pin := 0,
                     rate := 0, clk := 0, dacOut := 0 } ∧
  State.reset.cap = { armed := false, active := false, cursor := 0, mem := ⟨[], []⟩, dcAcc := 0, pin := 0, rate := 0 } ∧
  State.reset.trace = [] ∧ State.reset.cmdPort = none ∧ State.reset.rsp = none ∧ State.reset.sys = [] ∧
  State.reset.app = [] ∧ State.reset.hw = []

/-- R117: what each operation does between reset and the first `begin`, whatever `cap_mem` holds. -/
def Obligations.OperationsBeforeAnyBegin : Prop :=
  ∀ s : State, s.pb = PbUnit.reset → s.cap.armed = false → s.cap.active = false → s.cap.dcAcc = 0 →
    exec .pbTick s = .next s ∧
    (∀ data, exec (.capDmaWr data) s = .next s) ∧
    exec .pbStat s = .next { s with rsp := some ⟨.ok, 0x00000010⟩, cmdPort := none } ∧
    exec .capStat s = .next { s with rsp := some ⟨.ok, 0x00000000⟩, cmdPort := none } ∧
    exec .pbEnd s = .next { s with rsp := some ⟨.ok, 0⟩, cmdPort := none } ∧
    exec .capEnd s = .next { s with rsp := some ⟨.ok, 0⟩, cmdPort := none } ∧
    (∃ t, exec .capTake s = .next t ∧ t.rsp = some ⟨.ok, 1⟩ ∧ t.cap.dcAcc.toNat < 2 ^ 20 ∧
      (∀ i < 4096, capSample t true i = capSample s true i - dcEstimate t.cap.dcAcc) ∧
      (∀ i < 4096, capSample t false i = capSample s false i)) ∧
    (∀ slot index, ∃ t, exec (.capRd slot index) s = .next t ∧
      t.rsp = some ⟨.ok, (capSample s slot index.toNat).setWidth 32⟩) ∧
    (∀ (p₁ p₂ p₃ : Addr) (l₁ l₂ l₃ : Len), p₁.getLsbD 0 = false → p₂.getLsbD 0 = false → p₃.getLsbD 0 = false →
      l₁ ≠ 0 → l₂ ≠ 0 → l₃ ≠ 0 →
      ∃ t₁ t₂, exec (.pbSubmit p₁ l₁) s = .next t₁ ∧ t₁.pb.ptr = ⟨p₁, 0⟩ ∧ t₁.pb.len = ⟨l₁, 0⟩ ∧ t₁.rsp = some ⟨.ok, 0⟩ ∧
        exec (.pbSubmit p₂ l₂) t₁ = .next t₂ ∧ t₂.pb.ptr = ⟨p₁, p₂⟩ ∧ t₂.pb.len = ⟨l₁, l₂⟩ ∧ t₂.rsp = some ⟨.ok, 0⟩ ∧
        exec (.pbSubmit p₃ l₃) t₂ = .next t₂ ∧
        ∀ pin rate clk, rate ≠ 0 → ∃ t₃, exec (.pbBegin pin rate clk) t₂ = .next t₃ ∧ t₃.pb.len = ⟨0, 0⟩)

/-! ## The playback operations (40_playback_ops.md) -/

/-- R72. -/
def Obligations.PbBeginArmsPlayback : Prop :=
  ∀ (pin : Pin) (rate : Rate) (clk : Option Freq) (s : State),
    (rate = 0 → exec (.pbBegin pin rate clk) s = .next { s with rsp := some ⟨.cfgErr, 0⟩, cmdPort := none }) ∧
    (rate ≠ 0 → exec (.pbBegin pin rate clk) s = .next { s with
      pb := { armed := true, active := true, cursor := 0, ptr := s.pb.ptr, len := ⟨0, 0⟩, seen := false, pin := pin,
              rate := rate, clk := if clkField clk = 0 then Config.fClkDefault else clkField clk, dacOut := s.pb.dacOut },
      rsp := some ⟨.ok, 0⟩, cmdPort := none })

/-- R73. -/
def Obligations.PbEndDisarmsPlayback : Prop :=
  ∀ s : State, exec .pbEnd s = .next { s with
    pb := { armed := false, active := s.pb.active, cursor := s.pb.cursor, ptr := s.pb.ptr, len := s.pb.len, seen := s.pb.seen,
            pin := s.pb.pin, rate := s.pb.rate, clk := s.pb.clk, dacOut := s.pb.dacOut },
    rsp := some ⟨.ok, 0⟩, cmdPort := none }

/-- R74, R76: dropped while disarmed, idle on an empty hot slot, else one Sample read, emitted, and the cursor on, or back
to 0 with the flip at the hot buffer's length. The model's count of reads (log entry 4) is left open. -/
def Obligations.PbTickEmitsOneSample : Prop :=
  ∀ s : State,
    (s.pb.armed = false → exec .pbTick s = .next s) ∧
    (s.pb.armed = true → s.pb.len.get s.pb.active = 0 → exec .pbTick s = .next s) ∧
    (s.pb.armed = true → s.pb.len.get s.pb.active ≠ 0 →
      let a := BitVec.ofNat 32 ((s.pb.ptr.get s.pb.active).toNat + 2 * s.pb.cursor.toNat)
      let v := memByte s (a + 1) ++ memByte s a
      (s.pb.cursor.toNat + 1 < (s.pb.len.get s.pb.active).toNat →
        ∃ reads, exec .pbTick s = .next { s with
          pb := { s.pb with cursor := s.pb.cursor + 1, dacOut := v },
          trace := s.trace ++ [v], memAddr := some a, dacStrobe := true, sysReads := reads }) ∧
      ((s.pb.len.get s.pb.active).toNat ≤ s.pb.cursor.toNat + 1 →
        ∃ reads, exec .pbTick s = .next { s with
          pb := { s.pb with cursor := 0, active := !s.pb.active, dacOut := v },
          trace := s.trace ++ [v], memAddr := some a, dacStrobe := true, sysReads := reads }))

/-- R75, R22. -/
def Obligations.PbStatReportsTheHandshake : Prop :=
  ∀ s : State, ∃ d : RspData, exec .pbStat s = .next { s with rsp := some ⟨.ok, d⟩, cmdPort := none } ∧
    d.getLsbD 0 = s.pb.armed ∧ d.getLsbD 1 = s.pb.active ∧ d.getLsbD 2 = s.pb.seen ∧
    (d.getLsbD 3 = true ↔ s.pb.seen = s.pb.active ∧ s.pb.len.get s.pb.active ≠ 0) ∧
    (d.getLsbD 4 = true ↔ s.pb.len.get s.pb.active = 0) ∧
    d.extractLsb' 5 27 = 0

/-- R78: the operand checks before any wait, the wait while `pb_full`, the prime of an empty hot slot, the steady-state
handoff into the cold slot. -/
def Obligations.PbSubmitHandsABufferOver : Prop :=
  ∀ (ptr : Addr) (len : Len) (s : State),
    (len = 0 ∨ ptr.getLsbD 0 = true →
      exec (.pbSubmit ptr len) s = .next { s with rsp := some ⟨.cfgErr, 0⟩, cmdPort := none }) ∧
    (len ≠ 0 → ptr.getLsbD 0 = false → s.pb.seen = s.pb.active → s.pb.len.get s.pb.active ≠ 0 →
      exec (.pbSubmit ptr len) s = .next s) ∧
    (len ≠ 0 → ptr.getLsbD 0 = false → s.pb.len.get s.pb.active = 0 →
      exec (.pbSubmit ptr len) s = .next { s with
        pb := { s.pb with
          ptr := s.pb.ptr.set s.pb.active ptr, len := s.pb.len.set s.pb.active len, seen := !s.pb.active },
        rsp := some ⟨.ok, 0⟩, cmdPort := none }) ∧
    (len ≠ 0 → ptr.getLsbD 0 = false → s.pb.seen ≠ s.pb.active → s.pb.len.get s.pb.active ≠ 0 →
      exec (.pbSubmit ptr len) s = .next { s with
        pb := { s.pb with
          ptr := s.pb.ptr.set (!s.pb.active) ptr, len := s.pb.len.set (!s.pb.active) len, seen := s.pb.active },
        rsp := some ⟨.ok, 0⟩, cmdPort := none })

/-- R27 PB-I3: while a slot is hot and not empty its descriptor does not change, but by `PB_BEGIN`. -/
def Obligations.HotBufferIsNeverReplaced : Prop :=
  ∀ (i : Instr) (s t : State), exec i s = .next t → s.pb.len.get s.pb.active ≠ 0 →
    (∀ pin rate clk, i ≠ .pbBegin pin rate clk) →
    t.pb.ptr.get s.pb.active = s.pb.ptr.get s.pb.active ∧ t.pb.len.get s.pb.active = s.pb.len.get s.pb.active ∧
    (i ≠ .pbTick → t.pb.cursor = s.pb.cursor ∧ t.pb.active = s.pb.active)

/-- R27 PB-I5, R77: "the only place `active` is ever flipped", over operations and over whole steps. -/
def Obligations.SelectorFlipsOnlyAtABoundary : Prop :=
  (∀ (i : Instr) (s t : State), exec i s = .next t → t.pb.active ≠ s.pb.active →
    (i = .pbTick ∧ s.pb.armed = true ∧ s.pb.len.get s.pb.active ≠ 0 ∧
      (s.pb.len.get s.pb.active).toNat ≤ s.pb.cursor.toNat + 1 ∧ t.pb.cursor = 0) ∨
    (∃ pin rate clk, i = .pbBegin pin rate clk ∧ rate ≠ 0 ∧ t.pb.active = true)) ∧
  (∀ s t : State, step s = .next t → t.pb.active ≠ s.pb.active →
    (currentMove s).rst = true ∨ (currentMove s).tick = 1 ∨
    ∃ w pin rate clk, (stepStart s).cmdPort = some w ∧ decodeCmd w = .ok (.pbBegin pin rate clk) ∧ rate ≠ 0)

/-- R13, R16: a descriptor comes only from an accepted `PB_SUBMIT`; `PB_BEGIN` clears lengths and nothing else writes one. -/
def Obligations.DescriptorsComeOnlyFromSubmits : Prop :=
  ∀ (i : Instr) (s t : State) (slot : Slot), exec i s = .next t → t.pb.len.get slot ≠ 0 →
    (t.pb.ptr.get slot, t.pb.len.get slot) ≠ (s.pb.ptr.get slot, s.pb.len.get slot) →
    ∃ ptr len, i = .pbSubmit ptr len ∧ ptr.getLsbD 0 = false ∧ t.pb.ptr.get slot = ptr ∧ t.pb.len.get slot = len ∧
      t.rsp = some ⟨.ok, 0⟩

/-- R27 PB-I6, R87, R38: every read of SYS is of a Sample of the hot buffer, at an even address. That a read was
made is told by the model's count of reads (log entry 4). -/
def Obligations.ReadsStayInsideTheHotBuffer : Prop :=
  ∀ (i : Instr) (s t : State), s.pb.Inv → exec i s = .next t → t.sysReads ≠ s.sysReads →
    i = .pbTick ∧ t.sysReads = s.sysReads + 1 ∧
    ∃ (j : Nat) (a : Addr), j < (s.pb.len.get s.pb.active).toNat ∧ t.memAddr = some a ∧
      a.toNat = ((s.pb.ptr.get s.pb.active).toNat + 2 * j) % 2 ^ 32 ∧ a.getLsbD 0 = false

/-- R19, R13: the trace grows by one value at an emission, which `dac_out` then holds, and never otherwise. -/
def Obligations.TraceGrowsOnlyByATick : Prop :=
  ∀ (i : Instr) (s t : State), exec i s = .next t →
    (t.trace = s.trace ∧ t.pb.dacOut = s.pb.dacOut) ∨
    (i = .pbTick ∧ s.pb.armed = true ∧ t.trace = s.trace ++ [t.pb.dacOut] ∧ t.dacStrobe = true)

/-- R83, R74: from a non-empty hot slot the ticks emit the Samples from the cursor on, in order; the selector flips with
the last of them and not before. The count of reads in it is the model's (log entry 4). -/
def Obligations.TraversalEmitsTheHotBufferInOrder : Prop :=
  ∀ s : State, s.pb.armed = true → s.pb.cursor < s.pb.len.get s.pb.active →
    let n := (s.pb.len.get s.pb.active).toNat - s.pb.cursor.toNat
    ∀ k ≤ n, ∃ t, execAll (ticks k) s = .next t ∧
      t.trace = s.trace ++ (List.range k).map (fun j =>
        memRead { s with sysReads := s.sysReads + j }
          (sampleAddr (s.pb.ptr.get s.pb.active) (s.pb.cursor + BitVec.ofNat 32 j))) ∧
      t = { s with
        pb := { s.pb with
          cursor := if k = n then 0 else s.pb.cursor + BitVec.ofNat 32 k,
          active := if k = n then !s.pb.active else s.pb.active,
          dacOut := t.pb.dacOut },
        trace := t.trace, memAddr := t.memAddr, dacStrobe := t.dacStrobe, sysReads := s.sysReads + k }

/-- R85: the round trip of the source. -/
def Obligations.RoundTripOfThreeSamples : Prop :=
  ∀ (s : State) (pin : Pin) (rate : Rate) (clk : Option Freq) (ptr : Addr), rate ≠ 0 →
    holdsBuffer s.sys ptr [100, 200, 300] →
    ∃ t₀ t₁ t₂ t₃, execAll [.pbBegin pin rate clk, .pbSubmit ptr 3] s = .next t₀ ∧ t₀.rsp = some ⟨.ok, 0⟩ ∧
      exec .pbTick t₀ = .next t₁ ∧ t₁.pb.active = true ∧ t₁.trace = s.trace ++ [100] ∧
      exec .pbTick t₁ = .next t₂ ∧ t₂.pb.active = true ∧ t₂.trace = s.trace ++ [100, 200] ∧
      exec .pbTick t₂ = .next t₃ ∧ t₃.pb.active = false ∧ t₃.trace = s.trace ++ [100, 200, 300] ∧
      t₃.pb.cursor = 0 ∧ pbStatWord t₃.pb = 0x00000011

/-- R82, on its schedule: after `PB_BEGIN`, buffers each submitted as soon as the one before is accepted are emitted one
after another, whole and in order, with no Sample skipped or repeated. -/
def Obligations.QueuedBuffersPlayInOrder : Prop :=
  ∀ (s : State) (pin : Pin) (rate : Rate) (clk : Option Freq) (b : Addr × List Sample) (bs : List (Addr × List Sample)),
    rate ≠ 0 → (∀ x ∈ b :: bs, holdsBuffer s.sys x.1 x.2) →
    ∃ t, execAll (.pbBegin pin rate clk :: submitOf b :: playRest b bs) s = .next t ∧
      t.trace = s.trace ++ ((b :: bs).map Prod.snd).flatten ∧ t.pb.cursor = 0

/-- R84: after a handoff into the cold slot the next submit with valid operands is not accepted before a flip. -/
def Obligations.AcceptedHandoffBlocksUntilAFlip : Prop :=
  (∀ (ptr : Addr) (len : Len) (s t : State), exec (.pbSubmit ptr len) s = .next t → len ≠ 0 → ptr.getLsbD 0 = false →
    pbFull s.pb = false → s.pb.len.get s.pb.active ≠ 0 → pbFull t.pb = true) ∧
  (∀ (i : Instr) (s t : State), exec i s = .next t → pbFull s.pb = true → t.pb.active = s.pb.active →
    (∀ pin rate clk, i ≠ .pbBegin pin rate clk) → pbFull t.pb = true) ∧
  (∀ (ptr : Addr) (len : Len) (s : State), len ≠ 0 → ptr.getLsbD 0 = false → pbFull s.pb = true →
    exec (.pbSubmit ptr len) s = .next s)

/-- R86: while `pb_full` no descriptor, so no pending one, is overwritten, and `pb_full` lasts until the flip; a submit
presented while `pb_full` is not accepted and changes nothing; directly after `PB_BEGIN` two submits are accepted, neither
overwriting the other, and the third waits. -/
def Obligations.BackToBackSubmitsKeepThePendingBuffer : Prop :=
  (∀ (i : Instr) (s t : State), exec i s = .next t → pbFull s.pb = true → (∀ pin rate clk, i ≠ .pbBegin pin rate clk) →
    t.pb.ptr = s.pb.ptr ∧ t.pb.len = s.pb.len ∧ (t.pb.active = s.pb.active → pbFull t.pb = true)) ∧
  (∀ (ptr : Addr) (len : Len) (s : State), len ≠ 0 → ptr.getLsbD 0 = false → pbFull s.pb = true →
    exec (.pbSubmit ptr len) s = .next s) ∧
  (∀ (s : State) (pin : Pin) (rate : Rate) (clk : Option Freq) (p₁ p₂ p₃ : Addr) (l₁ l₂ l₃ : Len), rate ≠ 0 →
    p₁.getLsbD 0 = false → p₂.getLsbD 0 = false → p₃.getLsbD 0 = false → l₁ ≠ 0 → l₂ ≠ 0 → l₃ ≠ 0 →
    ∃ t, execAll [.pbBegin pin rate clk, .pbSubmit p₁ l₁, .pbSubmit p₂ l₂] s = .next t ∧
      t.pb.ptr = ⟨p₂, p₁⟩ ∧ t.pb.len = ⟨l₂, l₁⟩ ∧ pbFull t.pb = true ∧ exec (.pbSubmit p₃ l₃) t = .next t)

/-- R79: while armed, a waiting `PB_SUBMIT` is accepted with the flip, after exactly `pb_len[pb_hot] - pb_cursor` ticks,
whatever else arrives meanwhile but a reset. -/
def Obligations.WaitEndsAfterTheRemainingTicks : Prop :=
  ∀ (s : State) (w : CmdWord) (ptr : Addr) (len : Len), s.pb.Inv → s.pb.armed = true → pbFull s.pb = true →
    s.cmdPort = some w → decodeCmd w = .ok (.pbSubmit ptr len) → len ≠ 0 → ptr.getLsbD 0 = false →
    let n := (s.pb.len.get s.pb.active).toNat - s.pb.cursor.toNat
    (∀ k < n, ∃ m, s.hw[k]? = some m ∧ m.rst = false ∧ m.tick = 1) →
    (∀ k < n, ∃ t, runSteps k s = .next t ∧ t.cmdPort = some w) ∧
    ∃ t, runSteps n s = .next t ∧ t.cmdPort = none ∧ t.rsp = some ⟨.ok, 0⟩ ∧
      t.pb.ptr.get s.pb.active = ptr ∧ t.pb.len.get s.pb.active = len

/-- R120, R79, U8: a `PB_SUBMIT` presented while disarmed and full never completes and holds the port until reset. That
a hang is next states with the command on the port is how the model shows it (log entry 15). -/
def Obligations.SubmitWhileDisarmedAndFullHangs : Prop :=
  ∀ (n : Nat) (s : State) (w : CmdWord) (ptr : Addr) (len : Len), s.pb.armed = false → pbFull s.pb = true →
    s.cmdPort = some w → decodeCmd w = .ok (.pbSubmit ptr len) → len ≠ 0 → ptr.getLsbD 0 = false →
    (∀ m ∈ s.hw.take n, m.rst = false) →
    ∃ t, runSteps n s = .next t ∧ t.cmdPort = some w ∧ t.app = s.app ∧ t.pb = s.pb ∧ t.trace = s.trace ∧
      (n ≠ 0 → t.rsp = none)

/-- R80: the flip does not look at the other slot. Onto a slot that holds a buffer, it toggles `pb_full` and the buffer
plays from index 0 with its old length; onto an empty one, ticks are idle until a submit primes it. -/
def Obligations.UnderrunFlipTogglesFull : Prop :=
  ∀ s t : State, exec .pbTick s = .next t → t.pb.active ≠ s.pb.active →
    t.pb.ptr = s.pb.ptr ∧ t.pb.len = s.pb.len ∧ t.pb.seen = s.pb.seen ∧ t.pb.cursor = 0 ∧
    (s.pb.len.get (!s.pb.active) ≠ 0 → pbFull t.pb = !pbFull s.pb) ∧
    (s.pb.len.get (!s.pb.active) = 0 → pbFull t.pb = false ∧ exec .pbTick t = .next t)

/-! ## Refusals (60_exceptions.md) -/

/-- R101, R105, R106: the complete list of refusals, with their codes; a refused command changes no state. -/
def Obligations.RefusalsAreTheListedOnes : Prop :=
  ∀ (s t : State) (w : CmdWord), s.cmdPort = some w → s.rsp = none → runCommand s = .next t →
    ((∃ d, t.rsp = some ⟨.cfgErr, d⟩) ↔
      (∃ pin clk, decodeCmd w = .ok (.pbBegin pin 0 clk)) ∨ (∃ pin, decodeCmd w = .ok (.capBegin pin 0)) ∨
      (∃ ptr len, decodeCmd w = .ok (.pbSubmit ptr len) ∧ (len = 0 ∨ ptr.getLsbD 0 = true))) ∧
    ((∃ d, t.rsp = some ⟨.illegal, d⟩) ↔ ¬ ∃ i, decodeCmd w = .ok i) ∧
    (∀ c d, t.rsp = some ⟨c, d⟩ → c ≠ .ok → d = 0 ∧ t = { s with rsp := some ⟨c, 0⟩, cmdPort := none })

/-- R102: what cannot be refused. -/
def Obligations.SixCommandsAlwaysAnswerOk : Prop :=
  ∀ (i : Instr) (s : State),
    i = .pbEnd ∨ i = .pbStat ∨ i = .capEnd ∨ i = .capTake ∨ i = .capStat ∨ (∃ slot index, i = .capRd slot index) →
    ∃ t d, exec i s = .next t ∧ t.rsp = some ⟨.ok, d⟩ ∧ t.cmdPort = none

/-- R102, R103: the two events have no response, never touch the command port, and are lost while their unit is
disarmed. -/
def Obligations.EventsNeverRespond : Prop :=
  ∀ (i : Instr) (s t : State), i = .pbTick ∨ (∃ data, i = .capDmaWr data) → exec i s = .next t →
    t.rsp = s.rsp ∧ t.cmdPort = s.cmdPort ∧ t.app = s.app ∧
    (s.pb.armed = false → i = .pbTick → t = s) ∧ (s.cap.armed = false → i ≠ .pbTick → t = s)

/-! ## The capture operations (41_capture_ops.md) -/

/-- R89. -/
def Obligations.CapBeginArmsCapture : Prop :=
  ∀ (pin : Pin) (rate : Rate) (s : State),
    (rate = 0 → exec (.capBegin pin rate) s = .next { s with rsp := some ⟨.cfgErr, 0⟩, cmdPort := none }) ∧
    (rate ≠ 0 → exec (.capBegin pin rate) s = .next { s with
      cap := { armed := true, active := false, cursor := 0, mem := s.cap.mem, dcAcc := 0, pin := pin, rate := rate },
      rsp := some ⟨.ok, 0⟩, cmdPort := none })

/-- R90. -/
def Obligations.CapEndDisarmsCapture : Prop :=
  ∀ s : State, exec .capEnd s = .next { s with
    cap := { armed := false, active := s.cap.active, cursor := s.cap.cursor, mem := s.cap.mem, dcAcc := s.cap.dcAcc,
             pin := s.cap.pin, rate := s.cap.rate },
    rsp := some ⟨.ok, 0⟩, cmdPort := none }

/-- R91: dropped while disarmed, else one container of the hot slot written and the cursor on, or back to 0 with the flip
after the last. -/
def Obligations.CapDmaWrFillsTheHotSlot : Prop :=
  ∀ (data : Sample) (s : State),
    (s.cap.armed = false → exec (.capDmaWr data) s = .next s) ∧
    (s.cap.armed = true → ∃ t, exec (.capDmaWr data) s = .next t ∧
      (∀ slot i, capSample t slot i =
        if slot = s.cap.active ∧ i = s.cap.cursor.toNat then data else capSample s slot i) ∧
      t = { s with cap := { s.cap with
        mem := t.cap.mem,
        cursor := if s.cap.cursor = 4095 then 0 else s.cap.cursor + 1,
        active := if s.cap.cursor = 4095 then !s.cap.active else s.cap.active } })

/-- R92: the mean of the cold slot into the accumulator, the new estimate subtracted from every container of the slot,
its number returned. -/
def Obligations.CapTakeCorrectsTheColdSlot : Prop :=
  ∀ s : State,
    let c := !s.cap.active
    let sum := ((List.range 4096).map fun i => (capSample s c i).toNat).sum
    let acc' := s.cap.dcAcc - (s.cap.dcAcc >>> 4) + BitVec.ofNat 32 (sum / 4096)
    let dc := (acc' >>> 4).extractLsb' 0 16
    ∃ t, exec .capTake s = .next t ∧
      (∀ i < 4096, capSample t c i = capSample s c i - dc) ∧
      (∀ i < 4096, capSample t (!c) i = capSample s (!c) i) ∧
      t = { s with
        cap := { s.cap with mem := t.cap.mem, dcAcc := acc' },
        rsp := some ⟨.ok, if c = true then 1 else 0⟩, cmdPort := none }

/-- R93. -/
def Obligations.CapRdReadsOneContainer : Prop :=
  ∀ (slot : Slot) (index : CapIndex) (s : State), ∃ d : RspData,
    exec (.capRd slot index) s = .next { s with rsp := some ⟨.ok, d⟩, cmdPort := none } ∧
    d.toNat = (capSample s slot index.toNat).toNat

/-- R94, R23. -/
def Obligations.CapStatReportsTheEstimate : Prop :=
  ∀ s : State, ∃ d : RspData, exec .capStat s = .next { s with rsp := some ⟨.ok, d⟩, cmdPort := none } ∧
    d.getLsbD 0 = s.cap.armed ∧ d.getLsbD 1 = s.cap.active ∧ d.extractLsb' 2 14 = 0 ∧
    d.extractLsb' 16 16 = (s.cap.dcAcc >>> 4).extractLsb' 0 16

/-- R28: CAP-I1 to CAP-I4, each over every operation, and CAP-I4 at reset. -/
def Obligations.CaptureUnitKeepsItsInvariants : Prop :=
  State.reset.cap.dcAcc.toNat < 2 ^ 20 ∧
  ∀ (i : Instr) (s t : State), exec i s = .next t →
    t.cap.cursor.toNat < 4096 ∧
    (∀ slot, ∀ n < 4096, capSample t slot n ≠ capSample s slot n →
      ((∃ data, i = .capDmaWr data) ∧ slot = s.cap.active) ∨ (i = .capTake ∧ slot = !s.cap.active)) ∧
    (t.cap.active ≠ s.cap.active →
      ((∃ data, i = .capDmaWr data) ∧ s.cap.cursor = 4095 ∧ t.cap.cursor = 0) ∨ (∃ pin rate, i = .capBegin pin rate)) ∧
    (s.cap.dcAcc.toNat < 2 ^ 20 → t.cap.dcAcc.toNat < 2 ^ 20)

/-- R95: the sum and the mean stay in their widths, the update is exact, the corrected value is exact in the two's
complement range, and a constant mean is a fixed point exactly when the estimate is that mean. -/
def Obligations.DcFilterIsExact : Prop :=
  (∀ (s : State) (slot : Slot), slotSum s slot < 2 ^ 28 ∧ slotMean s slot = slotSum s slot / 4096 ∧
    slotMean s slot < 2 ^ 16) ∧
  (∀ (acc : DcAcc) (mean : Nat), acc.toNat < 2 ^ 20 → mean < 2 ^ 16 →
    (dcNext acc mean).toNat = acc.toNat - acc.toNat / 16 + mean ∧ (dcNext acc mean).toNat < 2 ^ 20 ∧
    (dcEstimate (dcNext acc mean)).toNat = (dcNext acc mean).toNat / 16 ∧
    (dcNext acc mean = acc ↔ acc.toNat / 16 = mean)) ∧
  (∀ x dc : Sample, -32768 ≤ (x.toNat : Int) - dc.toNat → (x.toNat : Int) - dc.toNat ≤ 32767 →
    (x - dc).toInt = (x.toNat : Int) - dc.toNat)

/-- R91, R99: beats fill the hot slot from the cursor up, in order; a container not yet reached keeps what it held. -/
def Obligations.BeatsFillTheHotSlotInOrder : Prop :=
  ∀ (s : State) (xs : List Sample), s.cap.armed = true → s.cap.cursor.toNat + xs.length ≤ 4096 →
    ∃ t, execAll (beats xs) s = .next t ∧
      (∀ slot, ∀ i < 4096, capSample t slot i =
        if slot = s.cap.active ∧ s.cap.cursor.toNat ≤ i ∧ i < s.cap.cursor.toNat + xs.length
        then xs.getD (i - s.cap.cursor.toNat) 0 else capSample s slot i) ∧
      (t.cap.active ≠ s.cap.active ↔ s.cap.cursor.toNat + xs.length = 4096 ∧ xs ≠ []) ∧
      t.cap.cursor.toNat = (s.cap.cursor.toNat + xs.length) % 4096 ∧
      t = { s with cap := { s.cap with mem := t.cap.mem, cursor := t.cap.cursor, active := t.cap.active } }

/-- R96: `CAP_TAKE` returns the cold slot: slot 0 with its corrected contents after the first fill of a session, slot 1
after the second, and never the slot being filled. -/
def Obligations.TakenSlotIsTheFilledOne : Prop :=
  (∀ s : State, ∃ t, exec .capTake s = .next t ∧ t.cap.active = s.cap.active ∧
    t.rsp = some ⟨.ok, if s.cap.active = true then 0 else 1⟩) ∧
  (∀ (s : State) (pin : Pin) (rate : Rate) (xs ys : List Sample), rate ≠ 0 → xs.length = 4096 → ys.length = 4096 →
    (∃ t, execAll (.capBegin pin rate :: (beats xs ++ [.capTake])) s = .next t ∧ t.rsp = some ⟨.ok, 0⟩ ∧
      t.cap.active = true ∧ ∀ i < 4096, capSample t false i = xs.getD i 0 - dcEstimate t.cap.dcAcc) ∧
    (∃ t, execAll (.capBegin pin rate :: (beats xs ++ [.capTake] ++ beats ys ++ [.capTake])) s = .next t ∧
      t.rsp = some ⟨.ok, 1⟩ ∧ t.cap.active = false ∧
      ∀ i < 4096, capSample t true i = ys.getD i 0 - dcEstimate t.cap.dcAcc))

/-- R97: with every beat carrying `k` and one take after each fill, the estimate never decreases, never exceeds `k`, comes
within the stated bound, reaches `k`, and takes the stated values for `k = 2048`; the corrected Samples are `k` minus it. -/
def Obligations.DcEstimateConvergesToAConstant : Prop :=
  ∀ (k : Sample), ∃ dc : Nat → Nat,
    (∀ n, dc n ≤ dc (n + 1) ∧ dc n ≤ k.toNat ∧ 16 ^ n * (k.toNat - dc n) ≤ k.toNat * 15 ^ n + 16 ^ n) ∧
    (∃ N, ∀ n ≥ N, dc n = k.toNat) ∧
    (k = 2048 → [1, 2, 5, 10, 20, 50, 100, 128].map (fun n => 2048 - dc n) = [1920, 1800, 1484, 1074, 564, 81, 3, 0]) ∧
    ∀ (n : Nat) (s : State) (pin : Pin) (rate : Rate), rate ≠ 0 → n ≠ 0 →
      ∃ t, execAll (.capBegin pin rate :: captureRounds k n) s = .next t ∧
        (dcEstimate t.cap.dcAcc).toNat = dc n ∧
        t.rsp = some ⟨.ok, if t.cap.active = true then 0 else 1⟩ ∧
        ∀ i < 4096, (capSample t (!t.cap.active) i).toNat = k.toNat - dc n

/-- R98 (b): a second take with no flip between returns the same slot and corrects corrected values. -/
def Obligations.SecondTakeCorrectsCorrectedValues : Prop :=
  ∀ s : State, ∃ t₁ t₂, exec .capTake s = .next t₁ ∧ exec .capTake t₁ = .next t₂ ∧ t₂.rsp = t₁.rsp ∧
    ∀ i < 4096, capSample t₂ (!s.cap.active) i =
      capSample s (!s.cap.active) i - dcEstimate t₁.cap.dcAcc - dcEstimate t₂.cap.dcAcc

/-! ## The whole machine -/

/-- R2: no state is shared between PB and CAP. An operation of one unit leaves the other as it was, and what it does
depends only on its own unit (and, for PB, on SYS). The counts of reads and of resets are the model's (log entries 4, 6). -/
def Obligations.UnitsShareNoState : Prop :=
  (∀ (i : Instr) (s t : State), isPlayback i = true → exec i s = .next t → t.cap = s.cap ∧ t.resets = s.resets) ∧
  (∀ (i : Instr) (s t : State), isPlayback i = false → exec i s = .next t →
    t.pb = s.pb ∧ t.trace = s.trace ∧ t.sysReads = s.sysReads ∧ t.memAddr = s.memAddr ∧ t.dacStrobe = s.dacStrobe) ∧
  (∀ (i : Instr) (s s' t t' : State), isPlayback i = true → s.pb = s'.pb → s.trace = s'.trace → s.rsp = s'.rsp →
    s.sys = s'.sys → s.sysReads = s'.sysReads → exec i s = .next t → exec i s' = .next t' →
    t.pb = t'.pb ∧ t.trace = t'.trace ∧ t.rsp = t'.rsp) ∧
  (∀ (i : Instr) (s s' t t' : State), isPlayback i = false → s.cap = s'.cap → s.rsp = s'.rsp → s.resets = s'.resets →
    exec i s = .next t → exec i s' = .next t' → t.cap = t'.cap ∧ t.rsp = t'.rsp)

/-- R33: the block never writes SYS; over a step SYS changes only by the platform's stores, which are bytes at the stated
addresses and nowhere else. -/
def Obligations.SysIsNeverWritten : Prop :=
  (∀ (i : Instr) (s t : State), exec i s = .next t →
    (∀ a : Addr, Store.get t.sys a.toNat = Store.get s.sys a.toNat) ∧ (t.sysReads ≠ s.sysReads → i = .pbTick)) ∧
  (∀ s t : State, step s = .next t → ∀ a : Addr, (∀ v, (a, v) ∉ (currentMove s).stores) →
    Store.get t.sys a.toNat = Store.get s.sys a.toNat)

/-- R36, R37, R39: a read of two known bytes is their little-endian value, and a store is read back. -/
def Obligations.ReadsAreLittleEndian : Prop :=
  (∀ (s : State) (a : Addr) (lo hi : Byte), Store.get s.sys a.toNat = some lo → Store.get s.sys (a + 1).toNat = some hi →
    (memRead s a).extractLsb' 0 8 = lo ∧ (memRead s a).extractLsb' 8 8 = hi) ∧
  (∀ (s : State) (a : Addr) (lo hi : Byte),
    (memRead { s with sys := storeBytes s.sys [(a, lo), (a + 1, hi)] } a).toNat = hi.toNat * 256 + lo.toNat)

/-- R24: the configuration latches change only by an accepted `begin` of their unit, whose operands they then show. -/
def Obligations.LatchesHoldTheLastBegin : Prop :=
  ∀ (i : Instr) (s t : State), exec i s = .next t →
    ((t.pb.pin = s.pb.pin ∧ t.pb.rate = s.pb.rate ∧ t.pb.clk = s.pb.clk) ∨
      ∃ pin rate clk, i = .pbBegin pin rate clk ∧ rate ≠ 0 ∧ (configOutputs t).pbPin = pin ∧
        (configOutputs t).pbRate = rate ∧ (configOutputs t).pbArmed = true ∧
        (clkField clk ≠ 0 → (configOutputs t).pbClk = clkField clk)) ∧
    ((t.cap.pin = s.cap.pin ∧ t.cap.rate = s.cap.rate) ∨
      ∃ pin rate, i = .capBegin pin rate ∧ rate ≠ 0 ∧ (configOutputs t).capPin = pin ∧ (configOutputs t).capRate = rate ∧
        (configOutputs t).capArmed = true)

/-- Two SYS contents in canonical form that read alike at every address are the same data (the model's form of memory,
log entry 4). -/
def Obligations.CanonicalContentsAreUnique : Prop :=
  ∀ m n : Memory, m.wf = true → n.wf = true → (∀ a : Addr, Store.get m a.toNat = Store.get n a.toNat) → m = n

/-- R27, R28, R38, R19: the invariant holds after reset. The canonical forms in it are the model's (log entries 4, 6). -/
def Obligations.ResetStateMeetsTheInvariant : Prop := State.reset.Inv

/-- R27, R28, R38, R19: every step keeps the invariant, whatever the agents do, from every state that has it. The
canonical forms in it are the model's (log entries 4, 6). -/
def Obligations.EveryStepKeepsTheInvariant : Prop :=
  ∀ s t : State, s.Inv → step s = .next t → t.Inv
end

