-- ==== Sys2Proof/Laws/Decode.lean ====
section
/-! SUPPORT. The fields of an assembled command word, and a word as its fields. -/

namespace Sys2Proof

/-! ## Each field of an assembled word is what went in -/

@[simp] theorem cmdOp_cmdWord (op : BitVec 8) (pin : Pin) (a b : BitVec 32) : cmdOp (cmdWord op pin a b) = op := by
  apply BitVec.eq_of_getLsbD_eq
  intro i hi
  simp only [cmdOp, cmdWord, BitVec.getLsbD_append, BitVec.getLsbD_extractLsb']
  simp [hi]

@[simp] theorem cmdPin_cmdWord (op : BitVec 8) (pin : Pin) (a b : BitVec 32) : cmdPin (cmdWord op pin a b) = pin := by
  apply BitVec.eq_of_getLsbD_eq
  intro i hi
  simp only [cmdPin, cmdWord, BitVec.getLsbD_append, BitVec.getLsbD_extractLsb']
  simp [hi]

@[simp] theorem cmdRsv_cmdWord (op : BitVec 8) (pin : Pin) (a b : BitVec 32) : cmdRsv (cmdWord op pin a b) = 0 := by
  apply BitVec.eq_of_getLsbD_eq
  intro i hi
  have h₁ : ¬ 16 + i < 8 := by omega
  have h₂ : ¬ 16 + i - 8 < 8 := by omega
  have h₃ : 16 + i - 8 - 8 < 16 := by omega
  simp only [cmdRsv, cmdWord, BitVec.getLsbD_append, BitVec.getLsbD_extractLsb']
  simp [h₁, h₂, h₃]

@[simp] theorem cmdA_cmdWord (op : BitVec 8) (pin : Pin) (a b : BitVec 32) : cmdA (cmdWord op pin a b) = a := by
  apply BitVec.eq_of_getLsbD_eq
  intro i hi
  have h₁ : ¬ 32 + i < 8 := by omega
  have h₂ : ¬ 32 + i - 8 < 8 := by omega
  have h₃ : ¬ 32 + i - 8 - 8 < 16 := by omega
  have h₄ : 32 + i - 8 - 8 - 16 = i := by omega
  simp only [cmdA, cmdWord, BitVec.getLsbD_append, BitVec.getLsbD_extractLsb']
  simp [h₁, h₂, h₃, h₄, hi]

@[simp] theorem cmdB_cmdWord (op : BitVec 8) (pin : Pin) (a b : BitVec 32) : cmdB (cmdWord op pin a b) = b := by
  apply BitVec.eq_of_getLsbD_eq
  intro i hi
  have h₁ : ¬ 64 + i < 8 := by omega
  have h₂ : ¬ 64 + i - 8 < 8 := by omega
  have h₃ : ¬ 64 + i - 8 - 8 < 16 := by omega
  have h₄ : ¬ 64 + i - 8 - 8 - 16 < 32 := by omega
  have h₅ : 64 + i - 8 - 8 - 16 - 32 = i := by omega
  simp only [cmdB, cmdWord, BitVec.getLsbD_append, BitVec.getLsbD_extractLsb']
  simp [h₁, h₂, h₃, h₄, h₅, hi]

/-! ## A word with `rsv = 0` is assembled from its fields -/

theorem cmdWord_of_fields (w : CmdWord) (h : cmdRsv w = 0) : cmdWord (cmdOp w) (cmdPin w) (cmdA w) (cmdB w) = w := by
  apply BitVec.eq_of_getLsbD_eq
  intro i hi
  simp only [cmdWord, BitVec.getLsbD_append, cmdOp, cmdPin, cmdA, cmdB, BitVec.getLsbD_extractLsb']
  by_cases h₁ : i < 8
  · simp [h₁]
  by_cases h₂ : i - 8 < 8
  · have : 8 + (i - 8) = i := by omega
    simp [h₁, h₂, this]
  by_cases h₃ : i - 8 - 8 < 16
  · have hb : (cmdRsv w).getLsbD (i - 8 - 8) = false := by rw [h]; simp
    have : 16 + (i - 8 - 8) = i := by omega
    simp only [cmdRsv, BitVec.getLsbD_extractLsb', this] at hb
    simpa [h₁, h₂, h₃] using hb.symm
  by_cases h₄ : i - 8 - 8 - 16 < 32
  · have : 32 + (i - 8 - 8 - 16) = i := by omega
    simp [h₁, h₂, h₃, h₄, this]
  · have h₅ : i - 8 - 8 - 16 - 32 < 32 := by omega
    have : 64 + (i - 8 - 8 - 16 - 32) = i := by omega
    simp [h₁, h₂, h₃, h₄, h₅, this]

/-! ## Operand A of `CAP_RD`, and the optional clock -/

@[simp] theorem capRdHigh_capRdField (slot : Slot) (index : CapIndex) : capRdHigh (capRdField slot index) = 0 := by
  apply BitVec.eq_of_getLsbD_eq
  intro i hi
  have h₁ : ¬ 13 + i < 12 := by omega
  have h₂ : ¬ 13 + i - 12 < 1 := by omega
  simp only [capRdHigh, capRdField, BitVec.getLsbD_append, BitVec.getLsbD_extractLsb']
  simp [h₁, h₂]

@[simp] theorem capRdSlot_capRdField (slot : Slot) (index : CapIndex) : capRdSlot (capRdField slot index) = slot := by
  simp only [capRdSlot, capRdField, BitVec.getLsbD_append]
  simp

@[simp] theorem capRdIndex_capRdField (slot : Slot) (index : CapIndex) : capRdIndex (capRdField slot index) = index := by
  apply BitVec.eq_of_getLsbD_eq
  intro i hi
  simp only [capRdIndex, capRdField, BitVec.getLsbD_append, BitVec.getLsbD_extractLsb']
  simp [hi]

theorem capRdField_of_parts (a : BitVec 32) (h : capRdHigh a = 0) : capRdField (capRdSlot a) (capRdIndex a) = a := by
  apply BitVec.eq_of_getLsbD_eq
  intro i hi
  simp only [capRdField, BitVec.getLsbD_append, capRdIndex, capRdSlot, BitVec.getLsbD_extractLsb']
  by_cases h₁ : i < 12
  · simp [h₁]
  by_cases h₂ : i - 12 < 1
  · have : i = 12 := by omega
    subst this
    simp
  · have hb : (capRdHigh a).getLsbD (i - 13) = false := by rw [h]; simp
    have h₃ : 13 + (i - 13) = i := by omega
    have h₄ : i - 13 < 19 := by omega
    simp only [capRdHigh, BitVec.getLsbD_extractLsb', h₃, h₄] at hb
    simpa [h₁, h₂] using hb.symm

theorem clkField_clkOfField (b : BitVec 32) : clkField (clkOfField b) = b := by
  unfold clkOfField
  split_ifs with h
  · exact h.symm
  · rfl

theorem clkOfField_clkField (clk : Option Freq) (h : clkWellFormed clk = true) : clkOfField (clkField clk) = clk := by
  cases clk with
  | none => rfl
  | some f =>
    have hf : f ≠ 0 := by simpa [clkWellFormed] using h
    rw [clkField, clkOfField, if_neg hf]

theorem clkWellFormed_clkOfField (b : BitVec 32) : clkWellFormed (clkOfField b) = true := by
  unfold clkOfField
  split_ifs with h
  · rfl
  · simpa [clkWellFormed] using h

/-! ## What decoding answers -/

theorem whenZero_eq_ok (unused : Bool) (i j : Instr) : whenZero unused i = .ok j ↔ unused = true ∧ i = j := by
  cases unused <;> simp [whenZero]

/-- Only a word with `rsv = 0` decodes (R60). -/
theorem cmdRsv_of_decodeCmd (w : CmdWord) (i : Instr) (h : decodeCmd w = .ok i) : cmdRsv w = 0 := by
  by_contra hr
  unfold decodeCmd at h
  rw [if_pos hr] at h
  cases h

/-- The command port carries no `PB_TICK` (R111). -/
theorem decodeCmd_ne_pbTick (w : CmdWord) : decodeCmd w ≠ .ok .pbTick := by
  intro h
  unfold decodeCmd at h
  split_ifs at h <;> first | cases h | (rw [whenZero_eq_ok] at h; cases h.2)

/-- The command port carries no `CAP_DMA_WR` (R111). -/
theorem decodeCmd_ne_capDmaWr (w : CmdWord) (data : Sample) : decodeCmd w ≠ .ok (.capDmaWr data) := by
  intro h
  unfold decodeCmd at h
  split_ifs at h <;> first | cases h | (rw [whenZero_eq_ok] at h; cases h.2)

@[simp] theorem getLsbD_dmaWord (data : Sample) : (1#1 ++ data : DmaWord).getLsbD 16 = true := by
  have h : (1#1 ++ data).getLsbD 16 = if 16 < 16 then data.getLsbD 16 else (1#1).getLsbD (16 - 16) :=
    BitVec.getLsbD_append
  exact h.trans (by rw [if_neg (by decide)]; decide)

@[simp] theorem extractLsb_dmaWord (data : Sample) : (1#1 ++ data : DmaWord).extractLsb' 0 16 = data := by
  apply BitVec.eq_of_getLsbD_eq
  intro i hi
  rw [BitVec.getLsbD_extractLsb', Nat.zero_add]
  have h : (1#1 ++ data).getLsbD i = if i < 16 then data.getLsbD i else (1#1).getLsbD (i - 16) := BitVec.getLsbD_append
  simp only [h, hi, decide_true, Bool.true_and, if_true]

end Sys2Proof
end

