-- ==== Sys2Proof/Laws/State.lean ====
section
/-! SUPPORT. What each update of the state leaves in each field: one lemma per field per update, true by unfolding. -/

namespace Sys2Proof.Machine

/-! ## The slots of a pair -/

@[simp] theorem Pair.get_false {α : Type} (p : Pair α) : p.get false = p.slot0 := rfl
@[simp] theorem Pair.get_true {α : Type} (p : Pair α) : p.get true = p.slot1 := rfl
@[simp] theorem Pair.set_false {α : Type} (p : Pair α) (v : α) : p.set false v = ⟨v, p.slot1⟩ := rfl
@[simp] theorem Pair.set_true {α : Type} (p : Pair α) (v : α) : p.set true v = ⟨p.slot0, v⟩ := rfl

@[simp] theorem Pair.get_set_same {α : Type} (p : Pair α) (s : Slot) (v : α) : (p.set s v).get s = v := by
  cases s <;> rfl

@[simp] theorem Pair.get_set_other {α : Type} (p : Pair α) (s : Slot) (v : α) : (p.set s v).get (!s) = p.get (!s) := by
  cases s <;> rfl

@[simp] theorem Pair.get_set_not {α : Type} (p : Pair α) (s : Slot) (v : α) : (p.set (!s) v).get s = p.get s := by
  cases s <;> rfl

theorem Pair.get_set_of_ne {α : Type} (p : Pair α) (s t : Slot) (v : α) (h : t ≠ s) : (p.set s v).get t = p.get t := by
  cases s <;> cases t <;> first | rfl | exact absurd rfl h

theorem Pair.ext_get {α : Type} (p q : Pair α) (h : ∀ s, p.get s = q.get s) : p = q := by
  cases p; cases q
  have h₀ := h false
  have h₁ := h true
  simp only [Pair.get_false, Pair.get_true] at h₀ h₁
  rw [h₀, h₁]

/-! ## `respond`: a command completes -/

@[simp] theorem respond_pb (s : State) (c : RspCode) (d : RspData) : (respond s c d).pb = s.pb := rfl
@[simp] theorem respond_cap (s : State) (c : RspCode) (d : RspData) : (respond s c d).cap = s.cap := rfl
@[simp] theorem respond_trace (s : State) (c : RspCode) (d : RspData) : (respond s c d).trace = s.trace := rfl
@[simp] theorem respond_rsp (s : State) (c : RspCode) (d : RspData) : (respond s c d).rsp = some ⟨c, d⟩ := rfl
@[simp] theorem respond_memAddr (s : State) (c : RspCode) (d : RspData) : (respond s c d).memAddr = s.memAddr := rfl
@[simp] theorem respond_dacStrobe (s : State) (c : RspCode) (d : RspData) : (respond s c d).dacStrobe = s.dacStrobe := rfl
@[simp] theorem respond_cmdPort (s : State) (c : RspCode) (d : RspData) : (respond s c d).cmdPort = none := rfl
@[simp] theorem respond_app (s : State) (c : RspCode) (d : RspData) : (respond s c d).app = s.app := rfl
@[simp] theorem respond_hw (s : State) (c : RspCode) (d : RspData) : (respond s c d).hw = s.hw := rfl
@[simp] theorem respond_sys (s : State) (c : RspCode) (d : RspData) : (respond s c d).sys = s.sys := rfl
@[simp] theorem respond_sysReads (s : State) (c : RspCode) (d : RspData) : (respond s c d).sysReads = s.sysReads := rfl
@[simp] theorem respond_resets (s : State) (c : RspCode) (d : RspData) : (respond s c d).resets = s.resets := rfl

/-! ## `refuseCommand`: a command is refused -/

@[simp] theorem refuseCommand_pb (s : State) (c : RspCode) : (refuseCommand s c).pb = s.pb := rfl
@[simp] theorem refuseCommand_cap (s : State) (c : RspCode) : (refuseCommand s c).cap = s.cap := rfl
@[simp] theorem refuseCommand_trace (s : State) (c : RspCode) : (refuseCommand s c).trace = s.trace := rfl
@[simp] theorem refuseCommand_rsp (s : State) (c : RspCode) : (refuseCommand s c).rsp = some ⟨c, 0⟩ := rfl
@[simp] theorem refuseCommand_memAddr (s : State) (c : RspCode) : (refuseCommand s c).memAddr = s.memAddr := rfl
@[simp] theorem refuseCommand_dacStrobe (s : State) (c : RspCode) : (refuseCommand s c).dacStrobe = s.dacStrobe := rfl
@[simp] theorem refuseCommand_cmdPort (s : State) (c : RspCode) : (refuseCommand s c).cmdPort = none := rfl
@[simp] theorem refuseCommand_app (s : State) (c : RspCode) : (refuseCommand s c).app = s.app := rfl
@[simp] theorem refuseCommand_hw (s : State) (c : RspCode) : (refuseCommand s c).hw = s.hw := rfl
@[simp] theorem refuseCommand_sys (s : State) (c : RspCode) : (refuseCommand s c).sys = s.sys := rfl
@[simp] theorem refuseCommand_sysReads (s : State) (c : RspCode) : (refuseCommand s c).sysReads = s.sysReads := rfl
@[simp] theorem refuseCommand_resets (s : State) (c : RspCode) : (refuseCommand s c).resets = s.resets := rfl

/-! ## `issueRead`: a read of SYS goes out -/

@[simp] theorem issueRead_pb (s : State) (a : Addr) : (issueRead s a).pb = s.pb := rfl
@[simp] theorem issueRead_cap (s : State) (a : Addr) : (issueRead s a).cap = s.cap := rfl
@[simp] theorem issueRead_trace (s : State) (a : Addr) : (issueRead s a).trace = s.trace := rfl
@[simp] theorem issueRead_rsp (s : State) (a : Addr) : (issueRead s a).rsp = s.rsp := rfl
@[simp] theorem issueRead_memAddr (s : State) (a : Addr) : (issueRead s a).memAddr = some a := rfl
@[simp] theorem issueRead_dacStrobe (s : State) (a : Addr) : (issueRead s a).dacStrobe = s.dacStrobe := rfl
@[simp] theorem issueRead_cmdPort (s : State) (a : Addr) : (issueRead s a).cmdPort = s.cmdPort := rfl
@[simp] theorem issueRead_app (s : State) (a : Addr) : (issueRead s a).app = s.app := rfl
@[simp] theorem issueRead_hw (s : State) (a : Addr) : (issueRead s a).hw = s.hw := rfl
@[simp] theorem issueRead_sys (s : State) (a : Addr) : (issueRead s a).sys = s.sys := rfl
@[simp] theorem issueRead_sysReads (s : State) (a : Addr) : (issueRead s a).sysReads = s.sysReads + 1 := rfl
@[simp] theorem issueRead_resets (s : State) (a : Addr) : (issueRead s a).resets = s.resets := rfl

/-! ## `emit`: a value goes to the converter -/

@[simp] theorem emit_pb (s : State) (v : Sample) : (emit s v).pb = { s.pb with dacOut := v } := rfl
@[simp] theorem emit_cap (s : State) (v : Sample) : (emit s v).cap = s.cap := rfl
@[simp] theorem emit_trace (s : State) (v : Sample) : (emit s v).trace = s.trace ++ [v] := rfl
@[simp] theorem emit_rsp (s : State) (v : Sample) : (emit s v).rsp = s.rsp := rfl
@[simp] theorem emit_memAddr (s : State) (v : Sample) : (emit s v).memAddr = s.memAddr := rfl
@[simp] theorem emit_dacStrobe (s : State) (v : Sample) : (emit s v).dacStrobe = true := rfl
@[simp] theorem emit_cmdPort (s : State) (v : Sample) : (emit s v).cmdPort = s.cmdPort := rfl
@[simp] theorem emit_app (s : State) (v : Sample) : (emit s v).app = s.app := rfl
@[simp] theorem emit_hw (s : State) (v : Sample) : (emit s v).hw = s.hw := rfl
@[simp] theorem emit_sys (s : State) (v : Sample) : (emit s v).sys = s.sys := rfl
@[simp] theorem emit_sysReads (s : State) (v : Sample) : (emit s v).sysReads = s.sysReads := rfl
@[simp] theorem emit_resets (s : State) (v : Sample) : (emit s v).resets = s.resets := rfl

/-! ## `capWrite`: one container is written -/

@[simp] theorem capWrite_pb (s : State) (slot : Slot) (i : Nat) (v : Sample) : (capWrite s slot i v).pb = s.pb := rfl
@[simp] theorem capWrite_cap (s : State) (slot : Slot) (i : Nat) (v : Sample) : (capWrite s slot i v).cap = { s.cap with mem := s.cap.mem.set slot (Store.set (s.cap.mem.get slot) i v) } := rfl
@[simp] theorem capWrite_trace (s : State) (slot : Slot) (i : Nat) (v : Sample) : (capWrite s slot i v).trace = s.trace := rfl
@[simp] theorem capWrite_rsp (s : State) (slot : Slot) (i : Nat) (v : Sample) : (capWrite s slot i v).rsp = s.rsp := rfl
@[simp] theorem capWrite_memAddr (s : State) (slot : Slot) (i : Nat) (v : Sample) : (capWrite s slot i v).memAddr = s.memAddr := rfl
@[simp] theorem capWrite_dacStrobe (s : State) (slot : Slot) (i : Nat) (v : Sample) : (capWrite s slot i v).dacStrobe = s.dacStrobe := rfl
@[simp] theorem capWrite_cmdPort (s : State) (slot : Slot) (i : Nat) (v : Sample) : (capWrite s slot i v).cmdPort = s.cmdPort := rfl
@[simp] theorem capWrite_app (s : State) (slot : Slot) (i : Nat) (v : Sample) : (capWrite s slot i v).app = s.app := rfl
@[simp] theorem capWrite_hw (s : State) (slot : Slot) (i : Nat) (v : Sample) : (capWrite s slot i v).hw = s.hw := rfl
@[simp] theorem capWrite_sys (s : State) (slot : Slot) (i : Nat) (v : Sample) : (capWrite s slot i v).sys = s.sys := rfl
@[simp] theorem capWrite_sysReads (s : State) (slot : Slot) (i : Nat) (v : Sample) : (capWrite s slot i v).sysReads = s.sysReads := rfl
@[simp] theorem capWrite_resets (s : State) (slot : Slot) (i : Nat) (v : Sample) : (capWrite s slot i v).resets = s.resets := rfl

/-! ## `capRewrite`: a slot is rewritten whole -/

@[simp] theorem capRewrite_pb (s : State) (slot : Slot) (f : Nat → Sample) : (capRewrite s slot f).pb = s.pb := rfl
@[simp] theorem capRewrite_cap (s : State) (slot : Slot) (f : Nat → Sample) : (capRewrite s slot f).cap = { s.cap with mem := s.cap.mem.set slot ((List.range Config.capN).map fun i => (i, f i)) } := rfl
@[simp] theorem capRewrite_trace (s : State) (slot : Slot) (f : Nat → Sample) : (capRewrite s slot f).trace = s.trace := rfl
@[simp] theorem capRewrite_rsp (s : State) (slot : Slot) (f : Nat → Sample) : (capRewrite s slot f).rsp = s.rsp := rfl
@[simp] theorem capRewrite_memAddr (s : State) (slot : Slot) (f : Nat → Sample) : (capRewrite s slot f).memAddr = s.memAddr := rfl
@[simp] theorem capRewrite_dacStrobe (s : State) (slot : Slot) (f : Nat → Sample) : (capRewrite s slot f).dacStrobe = s.dacStrobe := rfl
@[simp] theorem capRewrite_cmdPort (s : State) (slot : Slot) (f : Nat → Sample) : (capRewrite s slot f).cmdPort = s.cmdPort := rfl
@[simp] theorem capRewrite_app (s : State) (slot : Slot) (f : Nat → Sample) : (capRewrite s slot f).app = s.app := rfl
@[simp] theorem capRewrite_hw (s : State) (slot : Slot) (f : Nat → Sample) : (capRewrite s slot f).hw = s.hw := rfl
@[simp] theorem capRewrite_sys (s : State) (slot : Slot) (f : Nat → Sample) : (capRewrite s slot f).sys = s.sys := rfl
@[simp] theorem capRewrite_sysReads (s : State) (slot : Slot) (f : Nat → Sample) : (capRewrite s slot f).sysReads = s.sysReads := rfl
@[simp] theorem capRewrite_resets (s : State) (slot : Slot) (f : Nat → Sample) : (capRewrite s slot f).resets = s.resets := rfl

/-! ## `drainSample`: one non-idle tick -/

@[simp] theorem drainSample_pb (s : State) : (drainSample s).pb = advanceCursor { s.pb with dacOut := memRead s (tickAddr s.pb) } := rfl
@[simp] theorem drainSample_cap (s : State) : (drainSample s).cap = s.cap := rfl
@[simp] theorem drainSample_trace (s : State) : (drainSample s).trace = s.trace ++ [memRead s (tickAddr s.pb)] := rfl
@[simp] theorem drainSample_rsp (s : State) : (drainSample s).rsp = s.rsp := rfl
@[simp] theorem drainSample_memAddr (s : State) : (drainSample s).memAddr = some (tickAddr s.pb) := rfl
@[simp] theorem drainSample_dacStrobe (s : State) : (drainSample s).dacStrobe = true := rfl
@[simp] theorem drainSample_cmdPort (s : State) : (drainSample s).cmdPort = s.cmdPort := rfl
@[simp] theorem drainSample_app (s : State) : (drainSample s).app = s.app := rfl
@[simp] theorem drainSample_hw (s : State) : (drainSample s).hw = s.hw := rfl
@[simp] theorem drainSample_sys (s : State) : (drainSample s).sys = s.sys := rfl
@[simp] theorem drainSample_sysReads (s : State) : (drainSample s).sysReads = s.sysReads + 1 := rfl
@[simp] theorem drainSample_resets (s : State) : (drainSample s).resets = s.resets := rfl

/-! ## `fillSample`: one accepted beat -/

@[simp] theorem fillSample_pb (s : State) (v : Sample) : (fillSample s v).pb = s.pb := rfl
@[simp] theorem fillSample_cap (s : State) (v : Sample) : (fillSample s v).cap = advanceFill (capWrite s (capHot s.cap) s.cap.cursor.toNat v).cap := rfl
@[simp] theorem fillSample_trace (s : State) (v : Sample) : (fillSample s v).trace = s.trace := rfl
@[simp] theorem fillSample_rsp (s : State) (v : Sample) : (fillSample s v).rsp = s.rsp := rfl
@[simp] theorem fillSample_memAddr (s : State) (v : Sample) : (fillSample s v).memAddr = s.memAddr := rfl
@[simp] theorem fillSample_dacStrobe (s : State) (v : Sample) : (fillSample s v).dacStrobe = s.dacStrobe := rfl
@[simp] theorem fillSample_cmdPort (s : State) (v : Sample) : (fillSample s v).cmdPort = s.cmdPort := rfl
@[simp] theorem fillSample_app (s : State) (v : Sample) : (fillSample s v).app = s.app := rfl
@[simp] theorem fillSample_hw (s : State) (v : Sample) : (fillSample s v).hw = s.hw := rfl
@[simp] theorem fillSample_sys (s : State) (v : Sample) : (fillSample s v).sys = s.sys := rfl
@[simp] theorem fillSample_sysReads (s : State) (v : Sample) : (fillSample s v).sysReads = s.sysReads := rfl
@[simp] theorem fillSample_resets (s : State) (v : Sample) : (fillSample s v).resets = s.resets := rfl

/-! ## `takeSlot`: the cold slot is corrected -/

@[simp] theorem takeSlot_pb (s : State) : (takeSlot s).pb = s.pb := rfl
@[simp] theorem takeSlot_cap (s : State) : (takeSlot s).cap = { (capRewrite s (capCold s.cap) fun i => capSample s (capCold s.cap) i - dcEstimate (takeAcc s)).cap with dcAcc := takeAcc s } := rfl
@[simp] theorem takeSlot_trace (s : State) : (takeSlot s).trace = s.trace := rfl
@[simp] theorem takeSlot_rsp (s : State) : (takeSlot s).rsp = s.rsp := rfl
@[simp] theorem takeSlot_memAddr (s : State) : (takeSlot s).memAddr = s.memAddr := rfl
@[simp] theorem takeSlot_dacStrobe (s : State) : (takeSlot s).dacStrobe = s.dacStrobe := rfl
@[simp] theorem takeSlot_cmdPort (s : State) : (takeSlot s).cmdPort = s.cmdPort := rfl
@[simp] theorem takeSlot_app (s : State) : (takeSlot s).app = s.app := rfl
@[simp] theorem takeSlot_hw (s : State) : (takeSlot s).hw = s.hw := rfl
@[simp] theorem takeSlot_sys (s : State) : (takeSlot s).sys = s.sys := rfl
@[simp] theorem takeSlot_sysReads (s : State) : (takeSlot s).sysReads = s.sysReads := rfl
@[simp] theorem takeSlot_resets (s : State) : (takeSlot s).resets = s.resets := rfl

/-! ## `clearOutputs`: the output signals of a step begin -/

@[simp] theorem clearOutputs_pb (s : State) : (clearOutputs s).pb = s.pb := rfl
@[simp] theorem clearOutputs_cap (s : State) : (clearOutputs s).cap = s.cap := rfl
@[simp] theorem clearOutputs_trace (s : State) : (clearOutputs s).trace = s.trace := rfl
@[simp] theorem clearOutputs_rsp (s : State) : (clearOutputs s).rsp = none := rfl
@[simp] theorem clearOutputs_memAddr (s : State) : (clearOutputs s).memAddr = none := rfl
@[simp] theorem clearOutputs_dacStrobe (s : State) : (clearOutputs s).dacStrobe = false := rfl
@[simp] theorem clearOutputs_cmdPort (s : State) : (clearOutputs s).cmdPort = s.cmdPort := rfl
@[simp] theorem clearOutputs_app (s : State) : (clearOutputs s).app = s.app := rfl
@[simp] theorem clearOutputs_hw (s : State) : (clearOutputs s).hw = s.hw := rfl
@[simp] theorem clearOutputs_sys (s : State) : (clearOutputs s).sys = s.sys := rfl
@[simp] theorem clearOutputs_sysReads (s : State) : (clearOutputs s).sysReads = s.sysReads := rfl
@[simp] theorem clearOutputs_resets (s : State) : (clearOutputs s).resets = s.resets := rfl

/-! ## `takeHwMove`: the inputs of a step are taken -/

@[simp] theorem takeHwMove_pb (s : State) : (takeHwMove s).pb = s.pb := rfl
@[simp] theorem takeHwMove_cap (s : State) : (takeHwMove s).cap = s.cap := rfl
@[simp] theorem takeHwMove_trace (s : State) : (takeHwMove s).trace = s.trace := rfl
@[simp] theorem takeHwMove_rsp (s : State) : (takeHwMove s).rsp = s.rsp := rfl
@[simp] theorem takeHwMove_memAddr (s : State) : (takeHwMove s).memAddr = s.memAddr := rfl
@[simp] theorem takeHwMove_dacStrobe (s : State) : (takeHwMove s).dacStrobe = s.dacStrobe := rfl
@[simp] theorem takeHwMove_cmdPort (s : State) : (takeHwMove s).cmdPort = s.cmdPort := rfl
@[simp] theorem takeHwMove_app (s : State) : (takeHwMove s).app = s.app := rfl
@[simp] theorem takeHwMove_hw (s : State) : (takeHwMove s).hw = s.hw.tail := rfl
@[simp] theorem takeHwMove_sys (s : State) : (takeHwMove s).sys = storeBytes s.sys (currentMove s).stores := rfl
@[simp] theorem takeHwMove_sysReads (s : State) : (takeHwMove s).sysReads = s.sysReads := rfl
@[simp] theorem takeHwMove_resets (s : State) : (takeHwMove s).resets = s.resets := rfl

/-! ## `resetBlock`: a step with `rst` asserted -/

@[simp] theorem resetBlock_pb (s : State) : (resetBlock s).pb = PbUnit.reset := rfl
@[simp] theorem resetBlock_cap (s : State) : (resetBlock s).cap = CapUnit.reset := rfl
@[simp] theorem resetBlock_trace (s : State) : (resetBlock s).trace = [] := rfl
@[simp] theorem resetBlock_rsp (s : State) : (resetBlock s).rsp = none := rfl
@[simp] theorem resetBlock_memAddr (s : State) : (resetBlock s).memAddr = none := rfl
@[simp] theorem resetBlock_dacStrobe (s : State) : (resetBlock s).dacStrobe = false := rfl
@[simp] theorem resetBlock_cmdPort (s : State) : (resetBlock s).cmdPort = none := rfl
@[simp] theorem resetBlock_app (s : State) : (resetBlock s).app = s.app := rfl
@[simp] theorem resetBlock_hw (s : State) : (resetBlock s).hw = s.hw := rfl
@[simp] theorem resetBlock_sys (s : State) : (resetBlock s).sys = s.sys := rfl
@[simp] theorem resetBlock_sysReads (s : State) : (resetBlock s).sysReads = s.sysReads := rfl
@[simp] theorem resetBlock_resets (s : State) : (resetBlock s).resets = s.resets + 1 := rfl

/-! ## `presentCommand`: APP's turn on the command port -/

@[simp] theorem presentCommand_pb (s : State) : (presentCommand s).pb = s.pb := by
  unfold presentCommand; split <;> rfl
@[simp] theorem presentCommand_cap (s : State) : (presentCommand s).cap = s.cap := by
  unfold presentCommand; split <;> rfl
@[simp] theorem presentCommand_trace (s : State) : (presentCommand s).trace = s.trace := by
  unfold presentCommand; split <;> rfl
@[simp] theorem presentCommand_rsp (s : State) : (presentCommand s).rsp = s.rsp := by
  unfold presentCommand; split <;> rfl
@[simp] theorem presentCommand_memAddr (s : State) : (presentCommand s).memAddr = s.memAddr := by
  unfold presentCommand; split <;> rfl
@[simp] theorem presentCommand_dacStrobe (s : State) : (presentCommand s).dacStrobe = s.dacStrobe := by
  unfold presentCommand; split <;> rfl
@[simp] theorem presentCommand_hw (s : State) : (presentCommand s).hw = s.hw := by
  unfold presentCommand; split <;> rfl
@[simp] theorem presentCommand_sys (s : State) : (presentCommand s).sys = s.sys := by
  unfold presentCommand; split <;> rfl
@[simp] theorem presentCommand_sysReads (s : State) : (presentCommand s).sysReads = s.sysReads := by
  unfold presentCommand; split <;> rfl
@[simp] theorem presentCommand_resets (s : State) : (presentCommand s).resets = s.resets := by
  unfold presentCommand; split <;> rfl

theorem presentCommand_of_some (s : State) (w : CmdWord) (h : s.cmdPort = some w) : presentCommand s = s := by
  simp [presentCommand, h]

theorem presentCommand_of_none (s : State) (h : s.cmdPort = none) :
    presentCommand s = { s with cmdPort := s.app.headD none, app := s.app.tail } := by
  simp [presentCommand, h]

end Sys2Proof.Machine
end

