-- ==== Sys2Proof/Laws/Store.lean ====
section
/-! SUPPORT. The laws of sparse contents: a read after a write, every other address unchanged, the canonical form kept,
and equal contents are equal lists. -/

namespace Sys2Proof.Machine

variable {α : Type}

@[simp] theorem Store.get_nil (a : Nat) : Store.get ([] : Store α) a = none := rfl

theorem Store.get_cons (k : Nat) (v : α) (m : Store α) (a : Nat) :
    Store.get ((k, v) :: m) a = if a = k then some v else Store.get m a := rfl

theorem Store.get_set_same (m : Store α) (a : Nat) (v : α) : Store.get (Store.set m a v) a = some v := by
  induction m with
  | nil => simp [Store.set, Store.get]
  | cons p m ih =>
    obtain ⟨k, x⟩ := p
    simp only [Store.set]
    split_ifs with h₁ h₂
    · simp [Store.get]
    · simp [Store.get]
    · simp [Store.get, h₂, ih]

theorem Store.get_set_other (m : Store α) (a b : Nat) (v : α) (h : b ≠ a) :
    Store.get (Store.set m a v) b = Store.get m b := by
  induction m with
  | nil => simp [Store.set, Store.get, h]
  | cons p m ih =>
    obtain ⟨k, x⟩ := p
    simp only [Store.set]
    split_ifs with h₁ h₂
    · simp [Store.get, h]
    · subst h₂; simp [Store.get, h]
    · simp [Store.get, ih]

theorem Store.get_set (m : Store α) (a b : Nat) (v : α) :
    Store.get (Store.set m a v) b = if b = a then some v else Store.get m b := by
  split_ifs with h
  · rw [h]; exact Store.get_set_same m a v
  · exact Store.get_set_other m a b v h

theorem Store.rises_mono (bound lo lo' : Nat) (m : Store α) (h : lo' ≤ lo) (hm : Store.rises bound lo m = true) :
    Store.rises bound lo' m = true := by
  cases m with
  | nil => rfl
  | cons p m =>
    obtain ⟨k, x⟩ := p
    simp only [Store.rises, Bool.and_eq_true, decide_eq_true_eq] at hm ⊢
    exact ⟨⟨by omega, hm.1.2⟩, hm.2⟩

theorem Store.rises_set (bound lo a : Nat) (m : Store α) (v : α) (hlo : lo ≤ a) (ha : a < bound)
    (hm : Store.rises bound lo m = true) : Store.rises bound lo (Store.set m a v) = true := by
  induction m generalizing lo with
  | nil => simp [Store.set, Store.rises, hlo, ha]
  | cons p m ih =>
    obtain ⟨k, x⟩ := p
    simp only [Store.rises, Bool.and_eq_true, decide_eq_true_eq] at hm
    obtain ⟨⟨h₁, h₂⟩, h₃⟩ := hm
    simp only [Store.set]
    split_ifs with hk hk'
    · simp only [Store.rises, Bool.and_eq_true, decide_eq_true_eq]
      exact ⟨⟨hlo, ha⟩, ⟨hk, h₂⟩, h₃⟩
    · subst hk'
      simp only [Store.rises, Bool.and_eq_true, decide_eq_true_eq]
      exact ⟨⟨hlo, ha⟩, h₃⟩
    · simp only [Store.rises, Bool.and_eq_true, decide_eq_true_eq]
      exact ⟨⟨h₁, h₂⟩, ih (k + 1) (by omega) h₃⟩

/-- A write keeps the canonical form. -/
theorem Store.wf_set (bound a : Nat) (m : Store α) (v : α) (ha : a < bound) (hm : Store.wf bound m = true) :
    Store.wf bound (Store.set m a v) = true :=
  Store.rises_set bound 0 a m v (Nat.zero_le a) ha hm

theorem Store.get_eq_none_of_rises (bound lo a : Nat) (m : Store α) (ha : a < lo) (hm : Store.rises bound lo m = true) :
    Store.get m a = none := by
  induction m generalizing lo with
  | nil => rfl
  | cons p m ih =>
    obtain ⟨k, x⟩ := p
    simp only [Store.rises, Bool.and_eq_true, decide_eq_true_eq] at hm
    rw [Store.get_cons, if_neg (by omega)]
    exact ih (k + 1) (by omega) hm.2

theorem Store.ext_of_rises (bound lo : Nat) (m n : Store α) (hm : Store.rises bound lo m = true)
    (hn : Store.rises bound lo n = true) (h : ∀ a, Store.get m a = Store.get n a) : m = n := by
  induction m generalizing lo n with
  | nil =>
    cases n with
    | nil => rfl
    | cons q n =>
      have := h q.1
      obtain ⟨k, x⟩ := q
      simp [Store.get] at this
  | cons p m ih =>
    obtain ⟨k, x⟩ := p
    cases n with
    | nil =>
      have := h k
      simp [Store.get] at this
    | cons q n =>
      obtain ⟨l, y⟩ := q
      simp only [Store.rises, Bool.and_eq_true, decide_eq_true_eq] at hm hn
      have hkl : k = l := by
        by_contra hne
        rcases Nat.lt_or_gt_of_ne hne with hlt | hgt
        · have hk := h k
          rw [Store.get_cons, if_pos rfl, Store.get_cons, if_neg hne,
            Store.get_eq_none_of_rises bound (l + 1) k n (by omega) hn.2] at hk
          cases hk
        · have hl := h l
          rw [Store.get_cons, if_neg (Ne.symm hne), Store.get_cons, if_pos rfl,
            Store.get_eq_none_of_rises bound (k + 1) l m (by omega) hm.2] at hl
          cases hl
      subst hkl
      have hx : x = y := by
        have hk := h k
        simpa [Store.get] using hk
      subst hx
      congr 1
      refine ih (k + 1) n hm.2 hn.2 fun a => ?_
      have ha := h a
      rw [Store.get_cons, Store.get_cons] at ha
      by_cases hak : a = k
      · subst hak
        rw [Store.get_eq_none_of_rises bound (a + 1) a m (by omega) hm.2,
          Store.get_eq_none_of_rises bound (a + 1) a n (by omega) hn.2]
      · simpa [hak] using ha

/-! ## A slot rewritten whole -/

theorem Store.rises_map (bound lo : Nat) (f : Nat → α) (n : Nat) (h : lo + n ≤ bound) :
    Store.rises bound lo ((List.range' lo n).map fun i => (i, f i)) = true := by
  induction n generalizing lo with
  | zero => rfl
  | succ n ih =>
    simp only [List.range'_succ, List.map_cons, Store.rises, Bool.and_eq_true, decide_eq_true_eq]
    exact ⟨⟨le_refl lo, by omega⟩, ih (lo + 1) (by omega)⟩

theorem Store.get_map (f : Nat → α) (lo n a : Nat) :
    Store.get ((List.range' lo n).map fun i => (i, f i)) a = if lo ≤ a ∧ a < lo + n then some (f a) else none := by
  induction n generalizing lo with
  | zero => simp
  | succ n ih =>
    simp only [List.range'_succ, List.map_cons, Store.get_cons]
    split_ifs with h₁ h₂ h₂
    · rw [h₁]
    · omega
    · rw [ih, if_pos (by omega)]
    · rw [ih, if_neg (by omega)]

/-! ## SYS -/

theorem Memory.wf_storeByte (m : Memory) (a : Addr) (v : Byte) (h : Memory.wf m = true) :
    Memory.wf (storeByte m a v) = true :=
  Store.wf_set (2 ^ 32) a.toNat m v a.isLt h

theorem Memory.wf_storeBytes (m : Memory) (ws : List (Addr × Byte)) (h : Memory.wf m = true) :
    Memory.wf (storeBytes m ws) = true := by
  induction ws generalizing m with
  | nil => exact h
  | cons w ws ih => exact ih (storeByte m w.1 w.2) (Memory.wf_storeByte m w.1 w.2 h)

end Sys2Proof.Machine
end

