-- ==== Sys2Proof/Laws/Ops.lean ====
section
/-! SUPPORT. One lemma for each shared operation that says once everything it does, for proofs to cite in the place of
its definition. -/

namespace Sys2Proof.Machine

/-! ## Reads of SYS -/

theorem memByte_of_known (s : State) (a : Addr) (b : Byte) (h : Store.get s.sys a.toNat = some b) : memByte s a = b := by
  simp [memByte, h]

theorem memRead_of_known (s : State) (a : Addr) (lo hi : Byte) (hlo : Store.get s.sys a.toNat = some lo)
    (hhi : Store.get s.sys (a + 1).toNat = some hi) : memRead s a = hi ++ lo := by
  rw [memRead, memByte_of_known s a lo hlo, memByte_of_known s (a + 1) hi hhi]

/-- A read depends on SYS and on the count of reads alone. -/
theorem memRead_congr (s t : State) (a : Addr) (hsys : s.sys = t.sys) (hn : s.sysReads = t.sysReads) :
    memRead s a = memRead t a := by
  simp [memRead, memByte, hsys, hn]

theorem storeBytes_nil (m : Memory) : storeBytes m [] = m := rfl

theorem get_storeByte (m : Memory) (a b : Addr) (v : Byte) :
    Store.get (storeByte m a v) b.toNat = if b = a then some v else Store.get m b.toNat := by
  rw [storeByte, Store.get_set]
  exact if_congr BitVec.toNat_inj rfl rfl

/-! ## The capture containers -/

/-- A container depends on the slots and on the count of resets alone. -/
theorem capSample_congr (s t : State) (slot : Slot) (i : Nat) (hm : s.cap.mem = t.cap.mem) (hr : s.resets = t.resets) :
    capSample s slot i = capSample t slot i := by
  simp [capSample, hm, hr]

theorem capSample_capWrite (s : State) (slot : Slot) (i : Nat) (v : Sample) (slot' : Slot) (j : Nat) :
    capSample (capWrite s slot i v) slot' j = if slot' = slot ∧ j = i then v else capSample s slot' j := by
  by_cases hs : slot' = slot
  · subst hs
    by_cases hj : j = i
    · simp [capSample, hj, Store.get_set_same]
    · simp [capSample, hj, Store.get_set_other _ _ _ _ hj]
  · simp [capSample, hs, Pair.get_set_of_ne _ _ _ _ hs]

theorem capSample_capRewrite (s : State) (slot : Slot) (f : Nat → Sample) (slot' : Slot) (j : Nat) (hj : j < Config.capN) :
    capSample (capRewrite s slot f) slot' j = if slot' = slot then f j else capSample s slot' j := by
  by_cases hs : slot' = slot
  · subst hs
    simp only [capSample, capRewrite_cap, Pair.get_set_same, capRewrite_resets, List.range_eq_range']
    rw [Store.get_map, if_pos ⟨Nat.zero_le j, by simpa using hj⟩]
    simp
  · simp [capSample, hs, Pair.get_set_of_ne _ _ _ _ hs]

theorem capStoreWf_rewrite (f : Nat → Sample) : capStoreWf ((List.range Config.capN).map fun i => (i, f i)) = true := by
  rw [List.range_eq_range']
  exact Store.rises_map Config.capN 0 f Config.capN (by simp)

/-! ## The DC filter -/

/-- The sum by halves is the sum over the indices in order. -/
theorem sumPow_eq (f : Nat → Nat) (k lo : Nat) : sumPow f k lo = ((List.range' lo (2 ^ k)).map f).sum := by
  induction k generalizing lo with
  | zero => simp [sumPow]
  | succ k ih =>
    rw [sumPow, ih, ih, Nat.pow_succ, Nat.mul_two, ← List.range'_append_1, List.map_append, List.sum_append]

theorem sumPow_le (f : Nat → Nat) (c : Nat) (h : ∀ i, f i ≤ c) (k lo : Nat) : sumPow f k lo ≤ 2 ^ k * c := by
  induction k generalizing lo with
  | zero => simpa [sumPow] using h lo
  | succ k ih =>
    have h₁ := ih lo
    have h₂ := ih (lo + 2 ^ k)
    rw [sumPow, Nat.pow_succ]
    have : 2 ^ k * 2 * c = 2 ^ k * c + 2 ^ k * c := by ring
    omega

/-- Only the `2^k` indices from `lo` up are read. -/
theorem sumPow_congr (f g : Nat → Nat) (k lo : Nat) (h : ∀ i, lo ≤ i → i < lo + 2 ^ k → f i = g i) :
    sumPow f k lo = sumPow g k lo := by
  induction k generalizing lo with
  | zero => exact h lo (le_refl lo) (by simp)
  | succ k ih =>
    have hp : 2 ^ (k + 1) = 2 ^ k + 2 ^ k := by ring
    rw [sumPow, sumPow, ih lo fun i h₁ h₂ => h i h₁ (by omega),
      ih (lo + 2 ^ k) fun i h₁ h₂ => h i (by omega) (by omega)]

theorem sumPow_const (c k lo : Nat) : sumPow (fun _ => c) k lo = 2 ^ k * c := by
  induction k generalizing lo with
  | zero => simp [sumPow]
  | succ k ih => rw [sumPow, ih, ih]; ring

theorem slotSum_eq (s : State) (slot : Slot) :
    slotSum s slot = ((List.range 4096).map fun i => (capSample s slot i).toNat).sum := by
  simp [slotSum, sumPow_eq, List.range_eq_range']

theorem slotSum_le (s : State) (slot : Slot) : slotSum s slot ≤ 4096 * 65535 :=
  sumPow_le _ 65535 (fun i => by have := (capSample s slot i).isLt; omega) 12 0

theorem slotMean_eq (s : State) (slot : Slot) : slotMean s slot = slotSum s slot / 4096 := by
  simp [slotMean, Nat.shiftRight_eq_div_pow]

theorem slotMean_lt (s : State) (slot : Slot) : slotMean s slot < 2 ^ 16 := by
  have h := slotSum_le s slot
  rw [slotMean_eq]
  omega

/-- The mean of a slot that holds one value throughout is that value. -/
theorem slotMean_const (s : State) (slot : Slot) (k : Sample) (h : ∀ i < 4096, capSample s slot i = k) :
    slotMean s slot = k.toNat := by
  rw [slotMean_eq, slotSum, sumPow_congr _ (fun _ => k.toNat) _ _ fun i _ hi => by rw [h i (by simpa using hi)],
    sumPow_const]
  simp

theorem dcEstimate_toNat (acc : DcAcc) : (dcEstimate acc).toNat = acc.toNat / 16 % 65536 := by
  simp [dcEstimate, Nat.shiftRight_eq_div_pow]

/-- Below `2^(CB + DC_SHIFT)` the estimate loses nothing (R95). -/
theorem dcEstimate_toNat_of_lt (acc : DcAcc) (h : acc.toNat < 2 ^ 20) : (dcEstimate acc).toNat = acc.toNat / 16 := by
  rw [dcEstimate_toNat]; omega

/-- The update of R92 is exact and stays below `2^(CB + DC_SHIFT)` (R95). -/
theorem dcNext_toNat (acc : DcAcc) (mean : Nat) (h : acc.toNat < 2 ^ 20) (hm : mean < 2 ^ 16) :
    (dcNext acc mean).toNat = acc.toNat - acc.toNat / 16 + mean ∧ (dcNext acc mean).toNat < 2 ^ 20 := by
  have hs : (acc >>> Config.dcShift).toNat = acc.toNat / 16 := by simp [Nat.shiftRight_eq_div_pow]
  have hle : acc >>> Config.dcShift ≤ acc := by rw [BitVec.le_def, hs]; omega
  have : (dcNext acc mean).toNat = acc.toNat - acc.toNat / 16 + mean := by
    rw [dcNext, BitVec.toNat_add, BitVec.toNat_sub_of_le hle, hs, BitVec.toNat_ofNat]
    omega
  exact ⟨this, by omega⟩

/-! ## Cursors and handoffs -/

@[simp] theorem advanceCursor_armed (p : PbUnit) : (advanceCursor p).armed = p.armed := by unfold advanceCursor; split <;> rfl
@[simp] theorem advanceCursor_ptr (p : PbUnit) : (advanceCursor p).ptr = p.ptr := by unfold advanceCursor; split <;> rfl
@[simp] theorem advanceCursor_len (p : PbUnit) : (advanceCursor p).len = p.len := by unfold advanceCursor; split <;> rfl
@[simp] theorem advanceCursor_seen (p : PbUnit) : (advanceCursor p).seen = p.seen := by unfold advanceCursor; split <;> rfl
@[simp] theorem advanceCursor_pin (p : PbUnit) : (advanceCursor p).pin = p.pin := by unfold advanceCursor; split <;> rfl
@[simp] theorem advanceCursor_rate (p : PbUnit) : (advanceCursor p).rate = p.rate := by unfold advanceCursor; split <;> rfl
@[simp] theorem advanceCursor_clk (p : PbUnit) : (advanceCursor p).clk = p.clk := by unfold advanceCursor; split <;> rfl
@[simp] theorem advanceCursor_dacOut (p : PbUnit) : (advanceCursor p).dacOut = p.dacOut := by unfold advanceCursor; split <;> rfl

/-- Everything `advanceCursor` can do. -/
theorem advanceCursor_cases (p : PbUnit) :
    ((p.len.get p.active).toNat ≤ p.cursor.toNat + 1 ∧ advanceCursor p = { p with cursor := 0, active := !p.active }) ∨
    (p.cursor.toNat + 1 < (p.len.get p.active).toNat ∧ advanceCursor p = { p with cursor := p.cursor + 1 }) := by
  unfold advanceCursor pbHot
  split_ifs with h
  · exact .inl ⟨h, rfl⟩
  · exact .inr ⟨by omega, rfl⟩

/-- Everything an accepted handoff can do: a prime of the hot slot, or an install in the cold slot. -/
theorem handoff_cases (p : PbUnit) (ptr : Addr) (len : Len) :
    (p.len.get p.active = 0 ∧ handoff p ptr len =
      { p with ptr := p.ptr.set p.active ptr, len := p.len.set p.active len, seen := !p.active }) ∨
    (p.len.get p.active ≠ 0 ∧ handoff p ptr len =
      { p with ptr := p.ptr.set (!p.active) ptr, len := p.len.set (!p.active) len, seen := p.active }) := by
  by_cases h : p.len.get p.active = 0
  · exact .inl ⟨h, by simp [handoff, pbEmpty, pbHot, h, installBuffer]⟩
  · have he : pbEmpty p = false := by simpa [pbEmpty, pbHot] using h
    exact .inr ⟨h, by simp [handoff, he, pbCold, installBuffer]⟩

/-- Everything `advanceFill` can do. -/
theorem advanceFill_cases (c : CapUnit) :
    (c.cursor = 4095 ∧ advanceFill c = { c with cursor := 0, active := !c.active }) ∨
    (c.cursor.toNat < 4095 ∧ advanceFill c = { c with cursor := c.cursor + 1 }) := by
  unfold advanceFill
  have := c.cursor.isLt
  split_ifs with h
  · refine .inl ⟨?_, rfl⟩
    apply BitVec.eq_of_toNat_eq
    simp only [Config.capN] at h
    simp
    omega
  · exact .inr ⟨by simp only [Config.capN] at h; omega, rfl⟩

@[simp] theorem advanceFill_mem (c : CapUnit) : (advanceFill c).mem = c.mem := by unfold advanceFill; split <;> rfl
@[simp] theorem advanceFill_armed (c : CapUnit) : (advanceFill c).armed = c.armed := by unfold advanceFill; split <;> rfl
@[simp] theorem advanceFill_dcAcc (c : CapUnit) : (advanceFill c).dcAcc = c.dcAcc := by unfold advanceFill; split <;> rfl
@[simp] theorem advanceFill_pin (c : CapUnit) : (advanceFill c).pin = c.pin := by unfold advanceFill; split <;> rfl
@[simp] theorem advanceFill_rate (c : CapUnit) : (advanceFill c).rate = c.rate := by unfold advanceFill; split <;> rfl

/-- One accepted beat writes one container of the hot slot and no other. -/
theorem capSample_fillSample (s : State) (v : Sample) (slot : Slot) (i : Nat) :
    capSample (fillSample s v) slot i =
      if slot = s.cap.active ∧ i = s.cap.cursor.toNat then v else capSample s slot i := by
  rw [← capSample_capWrite]
  exact capSample_congr _ _ slot i (by simp [capHot]) rfl

/-- A take corrects the cold slot and touches no other container. -/
theorem capSample_takeSlot (s : State) (slot : Slot) (i : Nat) (hi : i < Config.capN) :
    capSample (takeSlot s) slot i =
      if slot = !s.cap.active then capSample s slot i - dcEstimate (takeAcc s) else capSample s slot i := by
  have h : capSample (takeSlot s) slot i = capSample (capRewrite s (capCold s.cap) fun i =>
      capSample s (capCold s.cap) i - dcEstimate (takeAcc s)) slot i :=
    capSample_congr _ _ slot i (by simp only [takeSlot_cap]) (by simp only [takeSlot_resets, capRewrite_resets])
  rw [h, capSample_capRewrite _ _ _ _ _ hi]
  unfold capCold
  by_cases hs : slot = !s.cap.active
  · rw [if_pos hs, if_pos hs, hs]
  · rw [if_neg hs, if_neg hs]

/-! ## The ports -/

@[simp] theorem andThen_next (s : State) (f : State → Host.Outcome State Fault Refusal) : andThen (.next s) f = f s := rfl

/-- A run that goes on: its first part goes on to some state, and the second from there. -/
theorem andThen_eq_next (o : Host.Outcome State Fault Refusal) (f : State → Host.Outcome State Fault Refusal) (t : State) :
    andThen o f = .next t ↔ ∃ s, o = .next s ∧ f s = .next t := by
  cases o with
  | next s => simp [andThen]
  | fault r => simp [andThen]
  | refused r => simp [andThen]

theorem runTick_eq (b : TickWord) (s : State) : runTick b s = if b = 1 then exec .pbTick s else .next s := by
  unfold runTick decodeTick
  split_ifs <;> rfl

theorem runDma_eq (d : DmaWord) (s : State) :
    runDma d s = if d.getLsbD 16 then exec (.capDmaWr (d.extractLsb' 0 16)) s else .next s := by
  unfold runDma decodeDma
  split_ifs <;> rfl

theorem runCommand_of_none (s : State) (h : s.cmdPort = none) : runCommand s = .next s := by simp [runCommand, h]

theorem runCommand_of_ok (s : State) (w : CmdWord) (i : Instr) (h : s.cmdPort = some w) (hd : decodeCmd w = .ok i) :
    runCommand s = exec i s := by simp [runCommand, h, hd]

theorem runCommand_of_error (s : State) (w : CmdWord) (r : NotAnOperation) (h : s.cmdPort = some w)
    (hd : decodeCmd w = .error r) : runCommand s = .next (refuseCommand s .illegal) := by simp [runCommand, h, hd]

theorem step_of_rst (s : State) (h : (currentMove s).rst = true) :
    step s = .next (resetBlock (takeHwMove (clearOutputs s))) := by simp [step, runStep, h]

theorem step_of_not_rst (s : State) (h : (currentMove s).rst = false) :
    step s = runPorts (currentMove s) (stepStart s) := by simp [step, runStep, h]

/-- A step without reset: the tick, the beat and the command, each if its port carries one. -/
theorem runPorts_eq (h : HwMove) (s : State) :
    runPorts h s =
      andThen (if h.tick = 1 then exec .pbTick s else .next s) fun s₁ =>
        andThen (if h.dma.getLsbD 16 then exec (.capDmaWr (h.dma.extractLsb' 0 16)) s₁ else .next s₁) runCommand := by
  simp only [runPorts, runTick_eq, runDma_eq]

/-! ## `stepStart` -/

@[simp] theorem stepStart_pb (s : State) : (stepStart s).pb = s.pb := by simp [stepStart]
@[simp] theorem stepStart_cap (s : State) : (stepStart s).cap = s.cap := by simp [stepStart]
@[simp] theorem stepStart_trace (s : State) : (stepStart s).trace = s.trace := by simp [stepStart]
@[simp] theorem stepStart_rsp (s : State) : (stepStart s).rsp = none := by simp [stepStart]
@[simp] theorem stepStart_memAddr (s : State) : (stepStart s).memAddr = none := by simp [stepStart]
@[simp] theorem stepStart_dacStrobe (s : State) : (stepStart s).dacStrobe = false := by simp [stepStart]
@[simp] theorem stepStart_hw (s : State) : (stepStart s).hw = s.hw.tail := by simp [stepStart]
@[simp] theorem stepStart_sysReads (s : State) : (stepStart s).sysReads = s.sysReads := by simp [stepStart]
@[simp] theorem stepStart_resets (s : State) : (stepStart s).resets = s.resets := by simp [stepStart]

@[simp] theorem stepStart_sys (s : State) : (stepStart s).sys = storeBytes s.sys (currentMove s).stores := by
  simp only [stepStart, presentCommand_sys, takeHwMove_sys, clearOutputs_sys]
  rfl

theorem stepStart_cmdPort_of_some (s : State) (w : CmdWord) (h : s.cmdPort = some w) :
    (stepStart s).cmdPort = some w ∧ (stepStart s).app = s.app := by
  rw [stepStart, presentCommand_of_some _ w (by simpa using h)]
  exact ⟨by simpa using h, rfl⟩

theorem stepStart_cmdPort_of_none (s : State) (h : s.cmdPort = none) :
    (stepStart s).cmdPort = s.app.headD none ∧ (stepStart s).app = s.app.tail := by
  rw [stepStart, presentCommand_of_none _ (by simpa using h)]
  exact ⟨rfl, rfl⟩

end Sys2Proof.Machine
end

