-- ==== Sys2Proof/Laws/Exec.lean ====
section
/-! SUPPORT. What each meaning does, in terms of the shared operations, and, for the whole of `exec`, everything an
operation can do to each unit: the two inversion lemmas to cite in the place of unfolding eleven meanings. -/

namespace Sys2Proof.Machine

/-! ## The predicates of R18 as propositions -/

theorem pbEmpty_iff (p : PbUnit) : pbEmpty p = true ↔ p.len.get p.active = 0 := by simp [pbEmpty, pbHot]

theorem pbEmpty_eq_false (p : PbUnit) : pbEmpty p = false ↔ p.len.get p.active ≠ 0 := by
  rw [← Bool.not_eq_true, pbEmpty_iff]

theorem pbFull_iff (p : PbUnit) : pbFull p = true ↔ p.seen = p.active ∧ p.len.get p.active ≠ 0 := by
  simp [pbFull, pbEmpty, pbHot]

theorem pbFull_of_seen_ne (p : PbUnit) (h : p.seen ≠ p.active) : pbFull p = false := by simp [pbFull, h]

theorem submitRefused_iff (ptr : Addr) (len : Len) : submitRefused ptr len = true ↔ len = 0 ∨ ptr.getLsbD 0 = true := by
  simp [submitRefused, -BitVec.getLsbD_eq_getElem]

theorem submitRefused_eq_false (ptr : Addr) (len : Len) :
    submitRefused ptr len = false ↔ len ≠ 0 ∧ ptr.getLsbD 0 = false := by
  rw [← Bool.not_eq_true, submitRefused_iff, not_or, Bool.not_eq_true]

theorem rateRefused_iff (rate : Rate) : rateRefused rate = true ↔ rate = 0 := by simp [rateRefused]

/-! ## One operation at a time -/

theorem exec_pbSubmit_refused (ptr : Addr) (len : Len) (s : State) (h : submitRefused ptr len = true) :
    exec (.pbSubmit ptr len) s = .next (refuseCommand s .cfgErr) := by simp [exec, execPbSubmit, h]

theorem exec_pbSubmit_waits (ptr : Addr) (len : Len) (s : State) (h : submitRefused ptr len = false)
    (hf : pbFull s.pb = true) : exec (.pbSubmit ptr len) s = .next s := by simp [exec, execPbSubmit, h, hf]

theorem exec_pbSubmit_accepted (ptr : Addr) (len : Len) (s : State) (h : submitRefused ptr len = false)
    (hf : pbFull s.pb = false) :
    exec (.pbSubmit ptr len) s = .next (respond { s with pb := handoff s.pb ptr len } .ok 0) := by
  simp [exec, execPbSubmit, h, hf]

theorem exec_pbTick_disarmed (s : State) (h : s.pb.armed = false) : exec .pbTick s = .next s := by
  simp [exec, execPbTick, h]

theorem exec_pbTick_idle (s : State) (h : pbEmpty s.pb = true) : exec .pbTick s = .next s := by
  simp [exec, execPbTick, h]

theorem exec_pbTick_drains (s : State) (ha : s.pb.armed = true) (he : pbEmpty s.pb = false) :
    exec .pbTick s = .next (drainSample s) := by simp [exec, execPbTick, ha, he]

theorem exec_capDmaWr_disarmed (data : Sample) (s : State) (h : s.cap.armed = false) :
    exec (.capDmaWr data) s = .next s := by simp [exec, execCapDmaWr, h]

theorem exec_capDmaWr_armed (data : Sample) (s : State) (h : s.cap.armed = true) :
    exec (.capDmaWr data) s = .next (fillSample s data) := by simp [exec, execCapDmaWr, h]

theorem exec_capTake (s : State) : exec .capTake s = .next (respond (takeSlot s) .ok (slotWord (capCold s.cap))) := rfl

/-! ## Everything an operation can do to a unit -/

/-- The playback unit after an operation: unchanged, begun, ended, handed a buffer, or one Sample on. -/
theorem exec_pb_cases (i : Instr) (s t : State) (h : exec i s = .next t) :
    t.pb = s.pb ∨
    (∃ pin rate clk, i = .pbBegin pin rate clk ∧ rate ≠ 0 ∧ t.pb = { s.pb with
      pin := pin, rate := rate, clk := clkLatched clk, active := true, cursor := 0, len := ⟨0, 0⟩, seen := false,
      armed := true }) ∨
    (i = .pbEnd ∧ t.pb = { s.pb with armed := false }) ∨
    (∃ ptr len, i = .pbSubmit ptr len ∧ submitRefused ptr len = false ∧ pbFull s.pb = false ∧
      t = respond { s with pb := handoff s.pb ptr len } .ok 0) ∨
    (i = .pbTick ∧ s.pb.armed = true ∧ pbEmpty s.pb = false ∧ t = drainSample s) := by
  cases i with
  | pbBegin pin rate clk =>
    simp only [exec, execPbBegin] at h
    split_ifs at h with hr
    · cases h; exact .inl rfl
    · cases h
      rw [rateRefused_iff] at hr
      exact .inr (.inl ⟨pin, rate, clk, rfl, hr, rfl⟩)
  | pbEnd => cases h; exact .inr (.inr (.inl ⟨rfl, rfl⟩))
  | pbSubmit ptr len =>
    simp only [exec, execPbSubmit] at h
    split_ifs at h with hr hf
    · cases h; exact .inl rfl
    · cases h; exact .inl rfl
    · cases h
      exact .inr (.inr (.inr (.inl ⟨ptr, len, rfl, by simpa using hr, by simpa using hf, rfl⟩)))
  | pbTick =>
    simp only [exec, execPbTick] at h
    split_ifs at h with ha he
    · cases h; exact .inl rfl
    · cases h; exact .inl rfl
    · cases h
      exact .inr (.inr (.inr (.inr ⟨rfl, by simpa using ha, by simpa using he, rfl⟩)))
  | capDmaWr data =>
    simp only [exec, execCapDmaWr] at h
    split_ifs at h <;> cases h <;> exact .inl rfl
  | capBegin pin rate =>
    simp only [exec, execCapBegin] at h
    split_ifs at h <;> cases h <;> exact .inl rfl
  | pbStat => cases h; exact .inl rfl
  | capEnd => cases h; exact .inl rfl
  | capTake => cases h; exact .inl rfl
  | capStat => cases h; exact .inl rfl
  | capRd slot index => cases h; exact .inl rfl

/-- The capture unit after an operation: unchanged, begun, ended, one container on, or its cold slot corrected. -/
theorem exec_cap_cases (i : Instr) (s t : State) (h : exec i s = .next t) :
    t.cap = s.cap ∨
    (∃ pin rate, i = .capBegin pin rate ∧ rate ≠ 0 ∧ t.cap = { s.cap with
      pin := pin, rate := rate, active := false, cursor := 0, dcAcc := 0, armed := true }) ∨
    (i = .capEnd ∧ t.cap = { s.cap with armed := false }) ∨
    (∃ data, i = .capDmaWr data ∧ s.cap.armed = true ∧ t = fillSample s data) ∨
    (i = .capTake ∧ t = respond (takeSlot s) .ok (slotWord (capCold s.cap))) := by
  cases i with
  | capBegin pin rate =>
    simp only [exec, execCapBegin] at h
    split_ifs at h with hr
    · cases h; exact .inl rfl
    · cases h
      rw [rateRefused_iff] at hr
      exact .inr (.inl ⟨pin, rate, rfl, hr, rfl⟩)
  | capEnd => cases h; exact .inr (.inr (.inl ⟨rfl, rfl⟩))
  | capDmaWr data =>
    simp only [exec, execCapDmaWr] at h
    split_ifs at h with ha
    · cases h; exact .inl rfl
    · cases h; exact .inr (.inr (.inr (.inl ⟨data, rfl, by simpa using ha, rfl⟩)))
  | capTake => cases h; exact .inr (.inr (.inr (.inr ⟨rfl, rfl⟩)))
  | pbBegin pin rate clk =>
    simp only [exec, execPbBegin] at h
    split_ifs at h <;> cases h <;> exact .inl rfl
  | pbSubmit ptr len =>
    simp only [exec, execPbSubmit] at h
    split_ifs at h <;> cases h <;> exact .inl rfl
  | pbTick =>
    simp only [exec, execPbTick] at h
    split_ifs at h <;> cases h <;> exact .inl (by simp)
  | pbEnd => cases h; exact .inl rfl
  | pbStat => cases h; exact .inl rfl
  | capStat => cases h; exact .inl rfl
  | capRd slot index => cases h; exact .inl rfl

/-- What no operation changes: SYS, the agents' lists, the count of resets. -/
theorem exec_env (i : Instr) (s t : State) (h : exec i s = .next t) :
    t.sys = s.sys ∧ t.app = s.app ∧ t.hw = s.hw ∧ t.resets = s.resets := by
  cases i <;>
    simp only [exec, execPbBegin, execPbEnd, execPbSubmit, execPbStat, execCapBegin, execCapEnd, execCapTake, execCapStat,
      execCapRd, execPbTick, execCapDmaWr] at h <;>
    (try split_ifs at h) <;> cases h <;> simp

/-- The two events touch neither the command port nor the response. -/
theorem exec_event_port (i : Instr) (s t : State) (hi : i = .pbTick ∨ ∃ data, i = .capDmaWr data) (h : exec i s = .next t) :
    t.cmdPort = s.cmdPort ∧ t.rsp = s.rsp := by
  rcases hi with rfl | ⟨data, rfl⟩
  · simp only [exec, execPbTick] at h
    split_ifs at h <;> cases h <;> simp
  · simp only [exec, execCapDmaWr] at h
    split_ifs at h <;> cases h <;> simp

/-! ## Runs -/

@[simp] theorem execAll_nil (s : State) : execAll [] s = .next s := rfl

@[simp] theorem execAll_cons (i : Instr) (is : List Instr) (s : State) :
    execAll (i :: is) s = andThen (exec i s) (execAll is) := rfl

/-- A run of two lists is a run of the first and then of the second. -/
theorem execAll_append (is js : List Instr) (s t : State) (h : execAll is s = .next t) :
    execAll (is ++ js) s = execAll js t := by
  induction is generalizing s with
  | nil => cases h; rfl
  | cons i is ih =>
    rw [execAll_cons, andThen_eq_next] at h
    obtain ⟨u, hu, h⟩ := h
    rw [List.cons_append, execAll_cons, hu, andThen_next, ih u h]

theorem runSteps_succ (n : Nat) (s : State) : runSteps (n + 1) s = andThen (step s) (runSteps n) := rfl

end Sys2Proof.Machine
end

