-- ==== Sys2Proof/Laws/PerInstr.lean ====
section
/-! SUPPORT. One statement for each constructor of `Instr`: the word that carries an operation lies under its row of
30_encoding.md R65. -/

namespace Sys2Proof.Laws

/-- `mask` and `match` of a row (R65), or of one of the two event formats. -/
inductive RowPattern where
  /-- A command row, over the 96 bits of CMD. -/
  | cmd (mask value : CmdWord)
  /-- The row of `PB_TICK`, over the 1 bit of TCK. -/
  | tck (mask value : TickWord)
  /-- The row of `CAP_DMA_WR`, over the 17 bits of DMW. -/
  | dmw (mask value : DmaWord)
deriving DecidableEq, Repr

/-- The row of an operation (R65). -/
def rowPattern : Instr → RowPattern
  | .pbBegin _ _ _ => .cmd 0x0000000000000000FFFF00FF 0x01
  | .pbEnd => .cmd 0xFFFFFFFFFFFFFFFFFFFFFFFF 0x02
  | .pbSubmit _ _ => .cmd 0x0000000000000000FFFFFFFF 0x03
  | .pbStat => .cmd 0xFFFFFFFFFFFFFFFFFFFFFFFF 0x04
  | .capBegin _ _ => .cmd 0xFFFFFFFF00000000FFFF00FF 0x11
  | .capEnd => .cmd 0xFFFFFFFFFFFFFFFFFFFFFFFF 0x12
  | .capTake => .cmd 0xFFFFFFFFFFFFFFFFFFFFFFFF 0x13
  | .capStat => .cmd 0xFFFFFFFFFFFFFFFFFFFFFFFF 0x14
  | .capRd _ _ => .cmd 0xFFFFFFFFFFFFE000FFFFFFFF 0x15
  | .pbTick => .tck 1 1
  | .capDmaWr _ => .dmw 0x10000 0x10000

/-- A word lies under a row of its own format. -/
def matchesRow : PortWord → RowPattern → Bool
  | .cmd w, .cmd m v => w &&& m == v
  | .tck b, .tck m v => b &&& m == v
  | .dmw d, .dmw m v => d &&& m == v
  | _, _ => false

/-- The encoding of an operation lies under its row. -/
def RowMatch.Statement (i : Instr) : Prop := matchesRow (encode i) (rowPattern i) = true

/-- A mask is applied field by field. -/
theorem and_fields (b b' a a' : BitVec 32) (r r' : BitVec 16) (p p' o o' : BitVec 8) :
    (b ++ a ++ r ++ p ++ o) &&& (b' ++ a' ++ r' ++ p' ++ o') =
      (b &&& b') ++ (a &&& a') ++ (r &&& r') ++ (p &&& p') ++ (o &&& o') := by
  simp only [BitVec.and_append]

theorem RowMatch.pbBegin (pin : Pin) (rate : Rate) (clk : Option Freq) : RowMatch.Statement (.pbBegin pin rate clk) := by
  refine beq_iff_eq.2 ((and_fields (clkField clk) 0 rate 0 0 0xFFFF pin 0 1 0xFF).trans ?_)
  simp only [BitVec.ofNat_eq_ofNat, BitVec.and_zero, BitVec.zero_and]
  decide

theorem RowMatch.pbEnd : RowMatch.Statement .pbEnd := by unfold RowMatch.Statement; decide

theorem RowMatch.pbSubmit (ptr : Addr) (len : Len) : RowMatch.Statement (.pbSubmit ptr len) := by
  refine beq_iff_eq.2 ((and_fields len 0 ptr 0 0 0xFFFF 0 0xFF 3 0xFF).trans ?_)
  simp only [BitVec.ofNat_eq_ofNat, BitVec.and_zero, BitVec.zero_and]
  decide

theorem RowMatch.pbStat : RowMatch.Statement .pbStat := by unfold RowMatch.Statement; decide

theorem RowMatch.capBegin (pin : Pin) (rate : Rate) : RowMatch.Statement (.capBegin pin rate) := by
  refine beq_iff_eq.2 ((and_fields 0 0xFFFFFFFF rate 0 0 0xFFFF pin 0 0x11 0xFF).trans ?_)
  simp only [BitVec.ofNat_eq_ofNat, BitVec.and_zero, BitVec.zero_and]
  decide

theorem RowMatch.capEnd : RowMatch.Statement .capEnd := by unfold RowMatch.Statement; decide

theorem RowMatch.capTake : RowMatch.Statement .capTake := by unfold RowMatch.Statement; decide

theorem RowMatch.capStat : RowMatch.Statement .capStat := by unfold RowMatch.Statement; decide

theorem RowMatch.capRd (slot : Slot) (index : CapIndex) : RowMatch.Statement (.capRd slot index) := by
  have ha : capRdField slot index &&& (0x7FFFF#19 ++ 0#1 ++ 0#12) = 0 := by
    have := BitVec.and_append (x₁ := 0#19 ++ BitVec.ofBool slot) (x₂ := 0x7FFFF#19 ++ 0#1) (y₁ := index) (y₂ := 0#12)
    refine this.trans ?_
    rw [BitVec.and_append]
    simp
  refine beq_iff_eq.2 ((and_fields 0 0xFFFFFFFF (capRdField slot index) (0x7FFFF#19 ++ 0#1 ++ 0#12) 0 0xFFFF 0 0xFF
    0x15 0xFF).trans ?_)
  rw [ha]
  decide

theorem RowMatch.pbTick : RowMatch.Statement .pbTick := by unfold RowMatch.Statement; decide

theorem RowMatch.capDmaWr (data : Sample) : RowMatch.Statement (.capDmaWr data) := by
  refine beq_iff_eq.2 ((BitVec.and_append (x₁ := 1#1) (x₂ := 1#1) (y₁ := data) (y₂ := 0#16)).trans ?_)
  simp only [BitVec.and_zero]
  decide

end Sys2Proof.Laws
end

