-- ==== Sys2Proof/Tests/Slice0.lean ====
section
/-! SUPPORT. Tests of the model against the vectors of 95_test_vectors.md and the examples of the rules, and, for each
statement with hypotheses, a witness that meets them all together. Each expected value is the spec's own. -/

namespace Sys2Proof.Machine

/-! ## Well-formedness (R63): the one check, with a term it refuses -/

theorem test_wellFormed_omitted_clk : (Instr.pbBegin 11 8000 none).wellFormed = true := by decide
theorem test_wellFormed_clk : (Instr.pbBegin 0 44100 (some 48000000)).wellFormed = true := by decide
theorem test_illFormed_zero_clk : (Instr.pbBegin 0 44100 (some 0)).wellFormed = false := by decide

/-! ## Words of 95_test_vectors.md section 2 -/

theorem test_decode_VE1 : decodeCmd 0x0000000000001F4000000B01 = .ok (.pbBegin 11 8000 none) := by decide
theorem test_decode_VE2 : decodeCmd 0x02DC6C000000AC4400000001 = .ok (.pbBegin 0 44100 (some 48000000)) := by decide
theorem test_decode_VE3 : decodeCmd 0x000000000000000000000002 = .ok .pbEnd := by decide
theorem test_decode_VE4 : decodeCmd 0x000000032000010000000003 = .ok (.pbSubmit 0x20000100 3) := by decide
theorem test_decode_VE5 : decodeCmd 0x000000000000000000000004 = .ok .pbStat := by decide
theorem test_decode_VE6 : decodeCmd 0x000000000000AC4400000311 = .ok (.capBegin 3 44100) := by decide
theorem test_decode_VE7 : decodeCmd 0x000000000000000000000012 = .ok .capEnd := by decide
theorem test_decode_VE8 : decodeCmd 0x000000000000000000000013 = .ok .capTake := by decide
theorem test_decode_VE9 : decodeCmd 0x000000000000000000000014 = .ok .capStat := by decide
theorem test_decode_VE10 : decodeCmd 0x000000000000000500000015 = .ok (.capRd false 5) := by decide
theorem test_decode_VE11 : decodeCmd 0x0000000000001FFF00000015 = .ok (.capRd true 4095) := by decide
theorem test_decode_VE12 : decodeTick 1 = .ok .pbTick := by decide
theorem test_decode_VE13 : decodeDma 0x10800 = .ok (.capDmaWr 0x0800) := by decide

/-- The vectors V-E20 to V-E30, in order. -/
def illegalWords : List CmdWord :=
  [0x00, 0x05, 0x10, 0x0000000000001F4000010B01, 0x000000000000000100000002, 0x000000032000010000000103,
    0x000000010000AC4400000311, 0x000000000000200000000015, 0x113, 0xFF, 0x80000003]

theorem test_illegal_words : illegalWords.all (fun w => (decodeCmd w).toOption.isNone) = true := by decide

theorem test_encode_VE2 : encode (.pbBegin 0 44100 (some 48000000)) = .cmd 0x02DC6C000000AC4400000001 := by decide
theorem test_encode_VE11 : encode (.capRd true 4095) = .cmd 0x0000000000001FFF00000015 := by decide
theorem test_encode_VE13 : encode (.capDmaWr 0x0800) = .dmw 0x10800 := by decide

/-! ## Words numbered as the opcode table numbers them -/

theorem test_table_cmd : decodeTableWord 96 0x000000032000010000000003 = some (.pbSubmit 0x20000100 3) := by decide
theorem test_table_tck : decodeTableWord 8 1 = some .pbTick := by decide
theorem test_table_dmw : decodeTableWord 24 0x10800 = some (.capDmaWr 0x0800) := by decide
theorem test_table_refuses : decodeTableWord 96 0 = none ∧ decodeTableWord 8 0 = none ∧ decodeTableWord 24 0x0800 = none := by
  decide

theorem test_fetch_cmd : step (State.reset.withFetchWord 96 0x04) = .next { State.reset with rsp := some ⟨.ok, 0x10⟩ } := rfl
theorem test_fetch_tck : step (State.reset.withFetchWord 8 1) = .next State.reset := rfl
theorem test_fetch_dmw : step (State.reset.withFetchWord 24 0x10800) = .next State.reset := rfl

/-! ## Small states -/

/-- Playback armed, with these registers, and SYS holding these bytes. -/
def playing (active seen : Slot) (cursor : Len) (ptr : Pair Addr) (len : Pair Len) (sys : Memory) : State :=
  { State.reset with
    pb := { PbUnit.reset with armed := true, active := active, seen := seen, cursor := cursor, ptr := ptr, len := len },
    sys := sys }

/-- V-P1 after step 2: the buffer 100, 200, 300 primed in slot 1. -/
def primed : State :=
  playing true false 0 ⟨0, 0x20000100⟩ ⟨0, 3⟩
    [(0x20000100, 100), (0x20000101, 0), (0x20000102, 200), (0x20000103, 0), (0x20000104, 0x2C), (0x20000105, 0x01)]

/-- V-P4 after step 4: A at 0x1000 hot at its second Sample, B at 0x2000 pending. -/
def handedOff : State :=
  playing true true 1 ⟨0x2000, 0x1000⟩ ⟨3, 2⟩ [(0x1000, 10), (0x1001, 0), (0x1002, 11), (0x1003, 0)]

/-- `handedOff` with the word of `PB_SUBMIT 0x1000, 2` waiting, and these inputs to come. -/
def waiting (hw : List HwMove) : State :=
  { handedOff with cmdPort := some 0x000000020000100000000003, hw := hw }

/-- Capture armed, with these registers. -/
def capturing (active : Slot) (cursor : CapIndex) (acc : DcAcc) : State :=
  { State.reset with cap := { CapUnit.reset with armed := true, active := active, cursor := cursor, dcAcc := acc } }

/-- The state an operation leaves, for reading a field of it; only its `next` is of interest. -/
def after (i : Instr) (s : State) : State :=
  match exec i s with
  | .next t => t
  | .fault _ => s
  | .refused _ => s

/-! ## Playback: one operation each -/

/-- V-P1 step 1. -/
theorem test_pbBegin : pbStatWord (after (.pbBegin 11 8000 none) State.reset).pb = 0x13 ∧
    (after (.pbBegin 11 8000 none) State.reset).pb.rate = 8000 := by decide
/-- V-P2. -/
theorem test_pbBegin_refused : exec (.pbBegin 11 0 none) primed = .next { primed with rsp := some ⟨.cfgErr, 0⟩ } := rfl
/-- V-P9: 0x0F becomes 0x0E. -/
theorem test_pbEnd : pbStatWord handedOff.pb = 0x0F ∧ pbStatWord (after .pbEnd handedOff).pb = 0x0E := by decide
/-- R117: 0x10 after reset. -/
theorem test_pbStat : (after .pbStat State.reset).rsp = some ⟨.ok, 0x10⟩ := by decide
/-- V-P7 step 5: a prime of slot 0 after a first-boundary underrun. -/
theorem test_pbSubmit_primes :
    let t := after (.pbSubmit 0x3000 2) (playing false false 0 ⟨0, 0x1000⟩ ⟨0, 2⟩ [])
    t.pb.ptr = ⟨0x3000, 0x1000⟩ ∧ t.pb.len = ⟨2, 2⟩ ∧ pbStatWord t.pb = 0x05 := by decide
/-- V-P4 step 2: into the cold slot. -/
theorem test_pbSubmit_hands_off :
    let t := after (.pbSubmit 0x2000 3) (playing true false 0 ⟨0, 0x1000⟩ ⟨0, 2⟩ [])
    t.pb.ptr = ⟨0x2000, 0x1000⟩ ∧ t.pb.len = ⟨3, 2⟩ ∧ pbStatWord t.pb = 0x0F := by decide
/-- The example of R74. -/
theorem test_pbTick_last_sample :
    let t := after .pbTick { primed with pb := { primed.pb with cursor := 2 } }
    t.trace = [0x012C] ∧ t.pb.cursor = 0 ∧ t.pb.active = false ∧ t.memAddr = some 0x20000104 := by decide
/-- V-P10, second tick: the address wraps. -/
theorem test_pbTick_address_wraps :
    (after .pbTick (playing true false 1 ⟨0, 0xFFFFFFFE⟩ ⟨0, 2⟩ [(0, 0x34), (1, 0x12)])).trace = [0x1234] := by decide

/-! ## Capture: one operation each -/

/-- The example of R89, and its status word. -/
theorem test_capBegin : capStatWord (after (.capBegin 3 44100) State.reset).cap = 1 := by decide
/-- V-P2. -/
theorem test_capBegin_refused :
    exec (.capBegin 3 0) (capturing true 17 5) = .next { capturing true 17 5 with rsp := some ⟨.cfgErr, 0⟩ } := rfl
/-- The example of R90. -/
theorem test_capEnd : (after .capEnd (capturing true 17 0)).cap = { (capturing true 17 0).cap with armed := false } := by decide
/-- V-C1: the last beat of a fill. -/
theorem test_capDmaWr_last :
    let t := after (.capDmaWr 4095) (capturing false 4095 0)
    t.cap.active = true ∧ t.cap.cursor = 0 ∧ capSample t false 4095 = 4095 := by decide
/-- V-C4: a beat into slot 0. -/
theorem test_capDmaWr : (after (.capDmaWr 555) (capturing false 2 0)).cap.mem = ⟨[(2, 555)], []⟩ := by decide
/-- V-C1: `CAP_RD 0, 0` of -127. -/
theorem test_capRd :
    (after (.capRd false 0) { State.reset with cap := { CapUnit.reset with mem := ⟨[(0, 0xFF81)], []⟩ } }).rsp =
      some ⟨.ok, 0x0000FF81⟩ := by decide
/-- V-C1. -/
theorem test_capStat : (after .capStat (capturing true 10 2047)).rsp = some ⟨.ok, 0x007F0003⟩ := by decide

/-- The example of R92, for every state it describes. -/
theorem test_capTake (s : State) (ha : s.cap.active = true) (hd : s.cap.dcAcc = 0)
    (hm : ∀ i < 4096, capSample s false i = 2048) :
    exec .capTake s = .next (respond (takeSlot s) .ok 0) ∧ (takeSlot s).cap.dcAcc = 2048 ∧
      ∀ i < 4096, capSample (takeSlot s) false i = 1920 := by
  have hc : capCold s.cap = false := by simp [capCold, ha]
  have hacc : takeAcc s = 2048 := by
    rw [takeAcc, hc, slotMean_const s false 2048 hm, hd]
    decide
  refine ⟨by rw [exec_capTake, hc]; rfl, hacc, fun i hi => ?_⟩
  rw [capSample_takeSlot s false i hi, if_pos (by rw [ha]; rfl), hm i hi, hacc]
  decide

/-- Slot 0 of 2048 throughout is a state that `test_capTake` describes. -/
theorem test_capTake_described :
    let s := capRewrite (capturing true 0 0) false fun _ => 2048
    s.cap.active = true ∧ s.cap.dcAcc = 0 ∧ ∀ i < 4096, capSample s false i = 2048 :=
  ⟨rfl, rfl, fun i hi => by rw [capSample_capRewrite _ _ _ _ _ hi, if_pos rfl]⟩

/-- V-C2, V-C3 and V-C6: the accumulator and the estimate. -/
theorem test_dc_filter :
    dcNext 2047 1000 = 2920 ∧ dcEstimate 2920 = 182 ∧ dcNext 2920 818 = 3556 ∧ dcEstimate 3556 = 222 ∧
    dcNext 0 65535 = 65535 ∧ dcEstimate 65535 = 4095 ∧ (0xFFFF : Sample) - dcEstimate 65535 = 0xF000 := by decide

/-! ## Steps -/

/-- V-P11: the flip and the end of the wait in one step. -/
theorem test_tick_before_submit :
    ∃ t, step (waiting [{ tick := 1 }]) = .next t ∧ t.trace = [11] ∧ t.rsp = some ⟨.ok, 0⟩ ∧ t.pb.active = false ∧
      t.pb.seen = false ∧ t.pb.ptr = ⟨0x2000, 0x1000⟩ := ⟨_, rfl, rfl, rfl, rfl, rfl, rfl⟩

/-- V-P3: a refused submit does not wait. -/
theorem test_refused_submit_does_not_wait :
    exec (.pbSubmit 0x1001 2) (waiting []) = .next { waiting [] with rsp := some ⟨.cfgErr, 0⟩, cmdPort := none } := rfl

/-- R116: the way out of a wait. -/
theorem test_reset_discards_the_wait :
    ∃ t, step (waiting [{ rst := true, tick := 1 }]) = .next t ∧ t.cmdPort = none ∧ t.trace = [] ∧ t.pb = PbUnit.reset :=
  ⟨_, rfl, rfl, rfl, rfl⟩

theorem test_reset_memory_canonical : State.reset.sys.wf = true ∧ capStoreWf State.reset.cap.mem.slot0 = true := by decide

/-! ## Witnesses: for each statement with hypotheses, operands and a state that meet them together -/

theorem witness_DecodeOfEncodeIsIdentity :
    (Instr.pbBegin 255 0xFFFFFFFF (some 1)).wellFormed = true ∧ (Instr.capRd true 4095).wellFormed = true := by decide

theorem witness_EncodeOfDecodeIsIdentity :
    decode (.cmd 0x02DC6C000000AC4400000001) = .ok (.pbBegin 0 44100 (some 48000000)) ∧ decode (.tck 1) = .ok .pbTick ∧
    decode (.dmw 0x1FFFF) = .ok (.capDmaWr 0xFFFF) := by decide

theorem illegal_of_error (w : CmdWord) (r : NotAnOperation) (h : decodeCmd w = .error r) : ¬ ∃ i, decodeCmd w = .ok i := by
  rintro ⟨i, hi⟩
  rw [h] at hi
  cases hi

theorem witness_IllegalWordsAnswerIllegal :
    ({ State.reset with cmdPort := some 0x80000003 } : State).cmdPort = some 0x80000003 ∧
    ¬ ∃ i, decodeCmd 0x80000003 = .ok i := ⟨rfl, illegal_of_error _ _ rfl⟩

theorem witness_StepRuns_command :
    let s := State.reset.withFetchWord 96 0x04
    (currentMove s).rst = false ∧ (currentMove s).tick = 0 ∧ (currentMove s).dma.getLsbD 16 = false ∧
      (stepStart s).cmdPort = some 0x04 ∧ decodeCmd 0x04 = .ok .pbStat := by decide
theorem witness_StepRuns_tick :
    let s := State.reset.withFetchWord 8 1
    (currentMove s).rst = false ∧ decodeTick (currentMove s).tick = .ok .pbTick ∧ (currentMove s).dma.getLsbD 16 = false ∧
      (stepStart s).cmdPort = none := by decide
theorem witness_StepRuns_beat :
    let s := State.reset.withFetchWord 24 0x10800
    (currentMove s).rst = false ∧ (currentMove s).tick = 0 ∧ decodeDma (currentMove s).dma = .ok (.capDmaWr 0x0800) ∧
      (stepStart s).cmdPort = none := by decide

theorem witness_Simultaneous :
    let s := waiting [{ tick := 1, dma := 0x10800 }]
    (currentMove s).rst = false ∧ (currentMove s).tick = 1 ∧ (currentMove s).dma.getLsbD 16 = true ∧
      s.cmdPort = some 0x000000020000100000000003 ∧ (stepStart s).cmdPort = s.cmdPort ∧
      decodeCmd 0x000000020000100000000003 = .ok (.pbSubmit 0x1000 2) ∧ (2 : Len) ≠ 0 ∧ (0x1000 : Addr).getLsbD 0 = false ∧
      s.pb.armed = true ∧ pbFull s.pb = true ∧ (s.pb.len.get s.pb.active).toNat ≤ s.pb.cursor.toNat + 1 := by decide
theorem witness_Simultaneous_illegal :
    let s : State := { State.reset with cmdPort := some 0 }
    (currentMove s).rst = false ∧ (stepStart s).cmdPort = some 0 ∧ ¬ ∃ i, decodeCmd 0 = .ok i :=
  ⟨rfl, rfl, illegal_of_error _ _ rfl⟩
theorem witness_Simultaneous_quiet : (currentMove State.reset).rst = false ∧ (stepStart State.reset).cmdPort = none := by decide

theorem witness_CommandsAreAccepted_ready :
    let s : State := { State.reset with cmdPort := some 0x02 }
    s.cmdPort = some 0x02 ∧ cmdReady s 0x02 = true := by decide
theorem witness_CommandsAreAccepted_notReady :
    (waiting []).cmdPort = some 0x000000020000100000000003 ∧ cmdReady (waiting []) 0x000000020000100000000003 = false := by decide

theorem witness_OnlyAFullSubmit :
    step (waiting []) = .next (waiting []) ∧ (waiting []).cmdPort = some 0x000000020000100000000003 := ⟨rfl, rfl⟩

theorem witness_ResetPin : (currentMove (waiting [{ rst := true, tick := 1, dma := 0x10001 }])).rst = true := by decide

theorem witness_OperationsBeforeAnyBegin :
    let s := State.reset
    s.pb = PbUnit.reset ∧ s.cap.armed = false ∧ s.cap.active = false ∧ s.cap.dcAcc = 0 ∧
    (0x1000 : Addr).getLsbD 0 = false ∧ (0 : Addr).getLsbD 0 = false ∧ (1 : Len) ≠ 0 ∧ (1 : Rate) ≠ 0 := by decide

theorem witness_PbBegin : (0 : Rate) = 0 ∧ (1 : Rate) ≠ 0 := by decide

theorem witness_PbTick_disarmed : State.reset.pb.armed = false := by decide
theorem witness_PbTick_idle :
    let s := playing true false 0 ⟨0, 0⟩ ⟨0, 0⟩ []
    s.pb.armed = true ∧ s.pb.len.get s.pb.active = 0 := by decide
theorem witness_PbTick_inside :
    let s := { primed with pb := { primed.pb with cursor := 1 } }
    s.pb.armed = true ∧ s.pb.len.get s.pb.active ≠ 0 ∧ s.pb.cursor.toNat + 1 < (s.pb.len.get s.pb.active).toNat := by decide
theorem witness_PbTick_boundary :
    let s := { primed with pb := { primed.pb with cursor := 2 } }
    s.pb.armed = true ∧ s.pb.len.get s.pb.active ≠ 0 ∧ (s.pb.len.get s.pb.active).toNat ≤ s.pb.cursor.toNat + 1 := by decide

theorem witness_PbSubmit_refused : (0 : Len) = 0 ∧ (1 : Addr).getLsbD 0 = true := by decide
theorem witness_PbSubmit_waits :
    (1 : Len) ≠ 0 ∧ (0 : Addr).getLsbD 0 = false ∧ handedOff.pb.seen = handedOff.pb.active ∧
      handedOff.pb.len.get handedOff.pb.active ≠ 0 := by decide
theorem witness_PbSubmit_primes :
    (1 : Len) ≠ 0 ∧ (0 : Addr).getLsbD 0 = false ∧ State.reset.pb.len.get State.reset.pb.active = 0 := by decide
theorem witness_PbSubmit_hands_off :
    (0xFFFFFFFF : Len) ≠ 0 ∧ (0xFFFFFFFE : Addr).getLsbD 0 = false ∧ primed.pb.seen ≠ primed.pb.active ∧
      primed.pb.len.get primed.pb.active ≠ 0 := by decide

theorem witness_HotBufferIsNeverReplaced :
    exec (.pbSubmit 0x1000 2) primed = .next (after (.pbSubmit 0x1000 2) primed) ∧
      primed.pb.len.get primed.pb.active ≠ 0 ∧ (∀ pin rate clk, Instr.pbSubmit 0x1000 2 ≠ .pbBegin pin rate clk) ∧
      Instr.pbSubmit 0x1000 2 ≠ .pbTick :=
  ⟨rfl, by decide, by intros; exact Instr.noConfusion, by decide⟩

theorem witness_SelectorFlips_operation :
    exec .pbTick handedOff = .next (after .pbTick handedOff) ∧ (after .pbTick handedOff).pb.active ≠ handedOff.pb.active :=
  ⟨rfl, by decide⟩
theorem witness_SelectorFlips_step :
    ∃ t, step { handedOff with hw := [{ tick := 1 }] } = .next t ∧ t.pb.active ≠ handedOff.pb.active := ⟨_, rfl, by decide⟩

theorem witness_DescriptorsComeOnlyFromSubmits :
    let t := after (.pbSubmit 0x1000 2) State.reset
    exec (.pbSubmit 0x1000 2) State.reset = .next t ∧ t.pb.len.get false ≠ 0 ∧
      (t.pb.ptr.get false, t.pb.len.get false) ≠ (State.reset.pb.ptr.get false, State.reset.pb.len.get false) :=
  ⟨rfl, by decide, by decide⟩

theorem witness_ReadsStayInside :
    handedOff.pb.Inv ∧ exec .pbTick handedOff = .next (after .pbTick handedOff) ∧
      (after .pbTick handedOff).sysReads ≠ handedOff.sysReads := ⟨by decide, rfl, by decide⟩

theorem witness_TraceGrows : exec .pbTick handedOff = .next (after .pbTick handedOff) := rfl

theorem witness_Traversal :
    handedOff.pb.armed = true ∧ handedOff.pb.cursor < handedOff.pb.len.get handedOff.pb.active ∧
      1 ≤ (handedOff.pb.len.get handedOff.pb.active).toNat - handedOff.pb.cursor.toNat := by decide

theorem witness_buffer : holdsBuffer primed.sys 0x20000100 [100, 200, 300] := by
  refine ⟨by decide, by decide, by decide, fun i x h => ?_⟩
  match i, h with
  | 0, h => cases h; decide
  | 1, h => cases h; decide
  | 2, h => cases h; decide
theorem witness_buffer_of_one : holdsBuffer primed.sys 0x20000102 [200] := by
  refine ⟨by decide, by decide, by decide, fun i x h => ?_⟩
  match i, h with
  | 0, h => cases h; decide

theorem witness_RoundTrip : (1 : Rate) ≠ 0 ∧ holdsBuffer primed.sys 0x20000100 [100, 200, 300] := ⟨by decide, witness_buffer⟩
theorem witness_QueuedBuffers :
    (1 : Rate) ≠ 0 ∧ ∀ x ∈ ((0x20000100, [100, 200, 300]) : Addr × List Sample) :: [(0x20000102, [200])],
      holdsBuffer primed.sys x.1 x.2 := by
  refine ⟨by decide, fun x hx => ?_⟩
  rcases List.mem_cons.mp hx with rfl | hx
  · exact witness_buffer
  · rw [List.mem_singleton.mp hx]
    exact witness_buffer_of_one

theorem witness_AcceptedHandoff_accepted :
    exec (.pbSubmit 0x1000 2) primed = .next (after (.pbSubmit 0x1000 2) primed) ∧ (2 : Len) ≠ 0 ∧
      (0x1000 : Addr).getLsbD 0 = false ∧ pbFull primed.pb = false ∧ primed.pb.len.get primed.pb.active ≠ 0 :=
  ⟨rfl, by decide⟩
theorem witness_full_stays :
    let s := { handedOff with pb := { handedOff.pb with cursor := 0 } }
    exec .pbTick s = .next (after .pbTick s) ∧ pbFull s.pb = true ∧ (after .pbTick s).pb.active = s.pb.active ∧
      ∀ pin rate clk, Instr.pbTick ≠ .pbBegin pin rate clk := ⟨rfl, by decide, by decide, by intros; exact Instr.noConfusion⟩
theorem witness_full_waits : (2 : Len) ≠ 0 ∧ (0x1000 : Addr).getLsbD 0 = false ∧ pbFull handedOff.pb = true := by decide
theorem witness_BackToBack :
    (1 : Rate) ≠ 0 ∧ (0x1000 : Addr).getLsbD 0 = false ∧ (0x2000 : Addr).getLsbD 0 = false ∧
      (0x3000 : Addr).getLsbD 0 = false ∧ (2 : Len) ≠ 0 ∧ (3 : Len) ≠ 0 ∧ (4 : Len) ≠ 0 := by decide

theorem witness_WaitEnds :
    let s := waiting [{ tick := 1 }]
    s.pb.Inv ∧ s.pb.armed = true ∧ pbFull s.pb = true ∧ s.cmdPort = some 0x000000020000100000000003 ∧
      decodeCmd 0x000000020000100000000003 = .ok (.pbSubmit 0x1000 2) ∧ (2 : Len) ≠ 0 ∧ (0x1000 : Addr).getLsbD 0 = false ∧
      ∀ k < (s.pb.len.get s.pb.active).toNat - s.pb.cursor.toNat, ∃ m, s.hw[k]? = some m ∧ m.rst = false ∧ m.tick = 1 := by
  refine ⟨by decide, rfl, rfl, rfl, by decide, by decide, by decide, fun k hk => ?_⟩
  have h1 : ((waiting [{ tick := 1 }]).pb.len.get (waiting [{ tick := 1 }]).pb.active).toNat -
    (waiting [{ tick := 1 }]).pb.cursor.toNat = 1 := by decide
  have : k = 0 := by omega
  subst this
  exact ⟨_, rfl, rfl, rfl⟩

theorem witness_Hangs :
    let s := { waiting [{ tick := 1 }, { dma := 0x10001 }] with pb := { handedOff.pb with armed := false } }
    s.pb.armed = false ∧ pbFull s.pb = true ∧ s.cmdPort = some 0x000000020000100000000003 ∧
      decodeCmd 0x000000020000100000000003 = .ok (.pbSubmit 0x1000 2) ∧ (2 : Len) ≠ 0 ∧ (0x1000 : Addr).getLsbD 0 = false ∧
      ∀ m ∈ s.hw.take 2, m.rst = false := by decide

theorem witness_Underrun_stale :
    exec .pbTick handedOff = .next (after .pbTick handedOff) ∧ (after .pbTick handedOff).pb.active ≠ handedOff.pb.active ∧
      handedOff.pb.len.get (!handedOff.pb.active) ≠ 0 := ⟨rfl, by decide⟩
theorem witness_Underrun_empty :
    let s := { primed with pb := { primed.pb with cursor := 2 } }
    exec .pbTick s = .next (after .pbTick s) ∧ (after .pbTick s).pb.active ≠ s.pb.active ∧ s.pb.len.get (!s.pb.active) = 0 :=
  ⟨rfl, by decide⟩

theorem witness_Refusals :
    let s : State := { State.reset with cmdPort := some 0x00000B01 }
    let t : State := { State.reset with rsp := some ⟨.cfgErr, 0⟩ }
    s.cmdPort = some 0x00000B01 ∧ s.rsp = none ∧ runCommand s = .next t ∧ decodeCmd 0x00000B01 = .ok (.pbBegin 11 0 none) :=
  ⟨rfl, rfl, rfl, by decide⟩
theorem witness_Refusals_illegal :
    let s : State := { State.reset with cmdPort := some 0xFF }
    s.cmdPort = some 0xFF ∧ s.rsp = none ∧ runCommand s = .next { State.reset with rsp := some ⟨.illegal, 0⟩ } := ⟨rfl, rfl, rfl⟩

theorem witness_SixCommands :
    let i := Instr.capRd true 4095
    i = .pbEnd ∨ i = .pbStat ∨ i = .capEnd ∨ i = .capTake ∨ i = .capStat ∨ (∃ slot index, i = .capRd slot index) :=
  .inr (.inr (.inr (.inr (.inr ⟨true, 4095, rfl⟩))))

theorem witness_EventsNeverRespond :
    exec .pbTick State.reset = .next State.reset ∧ State.reset.pb.armed = false ∧
      exec (.capDmaWr 1) State.reset = .next State.reset ∧ State.reset.cap.armed = false ∧ Instr.capDmaWr 1 ≠ .pbTick :=
  ⟨rfl, rfl, rfl, rfl, by decide⟩

theorem witness_CapBegin : (0 : Rate) = 0 ∧ (0xFFFFFFFF : Rate) ≠ 0 := by decide

theorem witness_CapDmaWr :
    State.reset.cap.armed = false ∧ (capturing false 4095 0).cap.armed = true ∧ (capturing false 4095 0).cap.cursor = 4095 ∧
      (capturing false 4094 0).cap.armed = true ∧ (capturing false 4094 0).cap.cursor ≠ 4095 := by decide

theorem witness_CaptureUnit_beat :
    let s := capturing false 4095 1048575
    let t := after (.capDmaWr 7) s
    exec (.capDmaWr 7) s = .next t ∧ t.cap.active ≠ s.cap.active ∧ s.cap.dcAcc.toNat < 2 ^ 20 := ⟨rfl, by decide⟩
theorem witness_CaptureUnit_write :
    let s : State := { capturing false 9 0 with cap := { (capturing false 9 0).cap with mem := ⟨[(9, 1)], []⟩ } }
    let t := after (.capDmaWr 7) s
    exec (.capDmaWr 7) s = .next t ∧ 9 < 4096 ∧ capSample t false 9 ≠ capSample s false 9 := ⟨rfl, by decide⟩

theorem witness_DcFilter :
    (0xFFFFF : DcAcc).toNat < 2 ^ 20 ∧ 65535 < 2 ^ 16 ∧
    (-32768 ≤ ((0 : Sample).toNat : Int) - (0x8000 : Sample).toNat ∧ ((0 : Sample).toNat : Int) - (0x8000 : Sample).toNat ≤ 32767) ∧
    (-32768 ≤ ((0x7FFF : Sample).toNat : Int) - (0 : Sample).toNat ∧
      ((0x7FFF : Sample).toNat : Int) - (0 : Sample).toNat ≤ 32767) := by decide

theorem witness_BeatsFill :
    let s := capturing false 4094 0
    s.cap.armed = true ∧ s.cap.cursor.toNat + [(5 : Sample), 6].length ≤ 4096 := by decide

theorem witness_TakenSlot :
    (1 : Rate) ≠ 0 ∧ (List.replicate 4096 (7 : Sample)).length = 4096 ∧ (List.replicate 4096 (9 : Sample)).length = 4096 :=
  ⟨by decide, List.length_replicate, List.length_replicate⟩

theorem witness_DcConverges : (44100 : Rate) ≠ 0 ∧ 128 ≠ 0 := by decide

theorem witness_UnitsShare_playback :
    isPlayback .pbTick = true ∧ exec .pbTick handedOff = .next (after .pbTick handedOff) ∧
      let s' : State := { handedOff with cap := (capturing true 5 9).cap, app := [some 0] }
      exec .pbTick s' = .next (after .pbTick s') ∧ handedOff.pb = s'.pb ∧ handedOff.trace = s'.trace ∧
        handedOff.rsp = s'.rsp ∧ handedOff.sys = s'.sys ∧ handedOff.sysReads = s'.sysReads :=
  ⟨rfl, rfl, rfl, rfl, rfl, rfl, rfl, rfl⟩
theorem witness_UnitsShare_capture :
    let s := capturing false 5 9
    isPlayback (.capDmaWr 1) = false ∧ exec (.capDmaWr 1) s = .next (after (.capDmaWr 1) s) ∧
      let s' : State := { s with pb := handedOff.pb }
      exec (.capDmaWr 1) s' = .next (after (.capDmaWr 1) s') ∧ s.cap = s'.cap ∧ s.rsp = s'.rsp ∧ s.resets = s'.resets :=
  ⟨rfl, rfl, rfl, rfl, rfl, rfl⟩

theorem witness_SysIsNeverWritten :
    (∃ t, exec .pbTick handedOff = .next t ∧ t.sysReads ≠ handedOff.sysReads) ∧
    (∃ t, step { handedOff with hw := [{ stores := [(0x1000, 5)] }] } = .next t ∧ ∀ v, ((0x1002 : Addr), v) ∉ [((0x1000 : Addr), (5 : Byte))]) :=
  ⟨⟨_, rfl, by decide⟩, ⟨_, rfl, fun v h => by simp at h⟩⟩

theorem witness_ReadsAreLittleEndian :
    let s : State := { State.reset with sys := [(0, 0x34), (0xFFFFFFFF, 0x12)] }
    Store.get s.sys (0xFFFFFFFF : Addr).toNat = some 0x12 ∧ Store.get s.sys ((0xFFFFFFFF : Addr) + 1).toNat = some 0x34 := by
  decide

theorem witness_Latches :
    exec (.pbBegin 11 8000 (some 48000000)) State.reset = .next (after (.pbBegin 11 8000 (some 48000000)) State.reset) ∧
    exec (.capBegin 3 44100) State.reset = .next (after (.capBegin 3 44100) State.reset) := ⟨rfl, rfl⟩

theorem witness_CanonicalContents :
    Memory.wf primed.sys = true ∧ ∀ a : Addr, Store.get primed.sys a.toNat = Store.get primed.sys a.toNat :=
  ⟨by decide, fun _ => rfl⟩

theorem witness_EveryStepKeeps :
    (waiting [{ tick := 1, dma := 0x10800 }]).Inv ∧ ∃ t, step (waiting [{ tick := 1, dma := 0x10800 }]) = .next t :=
  ⟨by decide, _, rfl⟩

end Sys2Proof.Machine
end

/-! The block's scope (00_scope.md R2): the two units share no state; and a step runs the operation its ports carry
(R10, R53, R57, R58). -/

namespace Sys2Proof

/-! ## What the two event ports carry -/

theorem decodeTick_eq_ok (b : TickWord) (i : Instr) : decodeTick b = .ok i ↔ b = 1 ∧ i = .pbTick := by
  unfold decodeTick
  split_ifs with hb
  · constructor
    · rintro ⟨⟩
      exact ⟨hb, rfl⟩
    · rintro ⟨_, rfl⟩
      rfl
  · exact ⟨nofun, fun ⟨h, _⟩ => absurd h hb⟩

theorem decodeDma_eq_ok (d : DmaWord) (i : Instr) :
    decodeDma d = .ok i ↔ d.getLsbD 16 = true ∧ i = .capDmaWr (d.extractLsb' 0 16) := by
  unfold decodeDma
  split_ifs with hd
  · constructor
    · rintro ⟨⟩
      exact ⟨hd, rfl⟩
    · rintro ⟨_, rfl⟩
      rfl
  · exact ⟨nofun, fun ⟨h, _⟩ => absurd h hd⟩

end Sys2Proof

namespace Sys2Proof.Machine

/-! ## The two `begin` commands, one branch at a time -/

theorem exec_pbBegin_refused (pin : Pin) (rate : Rate) (clk : Option Freq) (s : State) (h : rateRefused rate = true) :
    exec (.pbBegin pin rate clk) s = .next (refuseCommand s .cfgErr) := by simp [exec, execPbBegin, h]

theorem exec_pbBegin_accepted (pin : Pin) (rate : Rate) (clk : Option Freq) (s : State) (h : rateRefused rate = false) :
    exec (.pbBegin pin rate clk) s = .next (respond { s with pb := { s.pb with
      pin := pin, rate := rate, clk := clkLatched clk, active := true, cursor := 0, len := ⟨0, 0⟩, seen := false,
      armed := true } } .ok 0) := by simp [exec, execPbBegin, h]

theorem exec_capBegin_refused (pin : Pin) (rate : Rate) (s : State) (h : rateRefused rate = true) :
    exec (.capBegin pin rate) s = .next (refuseCommand s .cfgErr) := by simp [exec, execCapBegin, h]

theorem exec_capBegin_accepted (pin : Pin) (rate : Rate) (s : State) (h : rateRefused rate = false) :
    exec (.capBegin pin rate) s = .next (respond { s with cap := { s.cap with
      pin := pin, rate := rate, active := false, cursor := 0, dcAcc := 0, armed := true } } .ok 0) := by
  simp [exec, execCapBegin, h]

/-! ## What an operation writes -/

/-- Every operation but the tick writes the two units, the response and the command port at most: the trace, the
converter's strobe and the memory port are the tick's. -/
theorem exec_frame_of_ne_pbTick (i : Instr) (s t : State) (hi : i ≠ .pbTick) (h : exec i s = .next t) :
    ∃ p c r w, t = { s with pb := p, cap := c, rsp := r, cmdPort := w } := by
  cases i with
  | pbTick => exact absurd rfl hi
  | pbBegin pin rate clk =>
    simp only [exec, execPbBegin] at h
    split_ifs at h <;> cases h <;> exact ⟨_, _, _, _, rfl⟩
  | pbSubmit ptr len =>
    simp only [exec, execPbSubmit] at h
    split_ifs at h <;> cases h <;> exact ⟨_, _, _, _, rfl⟩
  | capBegin pin rate =>
    simp only [exec, execCapBegin] at h
    split_ifs at h <;> cases h <;> exact ⟨_, _, _, _, rfl⟩
  | capDmaWr data =>
    simp only [exec, execCapDmaWr] at h
    split_ifs at h <;> cases h <;> exact ⟨_, _, _, _, rfl⟩
  | pbEnd => cases h; exact ⟨_, _, _, _, rfl⟩
  | pbStat => cases h; exact ⟨_, _, _, _, rfl⟩
  | capEnd => cases h; exact ⟨_, _, _, _, rfl⟩
  | capTake => cases h; exact ⟨_, _, _, _, rfl⟩
  | capStat => cases h; exact ⟨_, _, _, _, rfl⟩
  | capRd slot index => cases h; exact ⟨_, _, _, _, rfl⟩

/-- A PB operation leaves the capture unit as it was. -/
theorem exec_playback_cap (i : Instr) (s t : State) (hi : isPlayback i = true) (h : exec i s = .next t) :
    t.cap = s.cap := by
  rcases exec_cap_cases i s t h with
    hcap | ⟨_, _, rfl, _⟩ | ⟨rfl, _⟩ | ⟨_, rfl, _⟩ | ⟨rfl, _⟩
  · exact hcap
  all_goals cases hi

/-- A CAP operation leaves the playback unit as it was. -/
theorem exec_capture_pb (i : Instr) (s t : State) (hi : isPlayback i = false) (h : exec i s = .next t) :
    t.pb = s.pb := by
  rcases exec_pb_cases i s t h with
    hpb | ⟨_, _, _, rfl, _⟩ | ⟨rfl, _⟩ | ⟨_, _, rfl, _⟩ | ⟨rfl, _⟩
  · exact hpb
  all_goals cases hi

theorem ne_pbTick_of_capture (i : Instr) (hi : isPlayback i = false) : i ≠ .pbTick := by
  rintro rfl
  cases hi

/-! ## What a PB operation depends on -/

/-- Two states that no PB operation can tell apart: they agree on the playback unit with its trace, on the response,
and on SYS with the model's count of reads (log entry 4). -/
structure AgreeForPlayback (s s' : State) : Prop where
  pb : s.pb = s'.pb
  trace : s.trace = s'.trace
  rsp : s.rsp = s'.rsp
  sys : s.sys = s'.sys
  sysReads : s.sysReads = s'.sysReads

theorem AgreeForPlayback.respond {s s' : State} (h : AgreeForPlayback s s') (c : RspCode) (d : RspData) :
    AgreeForPlayback (respond s c d) (respond s' c d) where
  pb := h.pb
  trace := h.trace
  rsp := rfl
  sys := h.sys
  sysReads := h.sysReads

/-- One function applied to both playback units. -/
theorem AgreeForPlayback.mapPb {s s' : State} (h : AgreeForPlayback s s') (f : PbUnit → PbUnit) :
    AgreeForPlayback { s with pb := f s.pb } { s' with pb := f s'.pb } where
  pb := congrArg f h.pb
  trace := h.trace
  rsp := h.rsp
  sys := h.sys
  sysReads := h.sysReads

theorem AgreeForPlayback.memRead {s s' : State} (h : AgreeForPlayback s s') (a : Addr) : memRead s a = memRead s' a :=
  memRead_congr s s' a h.sys h.sysReads

/-- The Sample a tick emits is the same one, since it is read at the same address of the same SYS by the read of the
same number. -/
theorem AgreeForPlayback.drainSample {s s' : State} (h : AgreeForPlayback s s') :
    AgreeForPlayback (drainSample s) (drainSample s') where
  pb := by simp only [drainSample_pb, h.memRead, h.pb]
  trace := by simp only [drainSample_trace, h.memRead, h.pb, h.trace]
  rsp := h.rsp
  sys := h.sys
  sysReads := congrArg (· + 1) h.sysReads

/-- A PB operation goes on from both of two states that agree for it, and they still agree. -/
theorem exec_agreeForPlayback (i : Instr) (s s' : State) (hi : isPlayback i = true) (h : AgreeForPlayback s s') :
    ∃ t t', exec i s = .next t ∧ exec i s' = .next t' ∧ AgreeForPlayback t t' := by
  cases i with
  | pbBegin pin rate clk =>
    cases hr : rateRefused rate with
    | true => exact ⟨_, _, exec_pbBegin_refused _ _ _ s hr, exec_pbBegin_refused _ _ _ s' hr, h.respond _ _⟩
    | false =>
      exact ⟨_, _, exec_pbBegin_accepted _ _ _ s hr, exec_pbBegin_accepted _ _ _ s' hr,
        (h.mapPb fun p => { p with
          pin := pin, rate := rate, clk := clkLatched clk, active := true, cursor := 0, len := ⟨0, 0⟩, seen := false,
          armed := true }).respond _ _⟩
  | pbEnd => exact ⟨_, _, rfl, rfl, (h.mapPb fun p => { p with armed := false }).respond _ _⟩
  | pbSubmit ptr len =>
    cases hr : submitRefused ptr len with
    | true => exact ⟨_, _, exec_pbSubmit_refused _ _ s hr, exec_pbSubmit_refused _ _ s' hr, h.respond _ _⟩
    | false =>
      cases hf : pbFull s.pb with
      | true => exact ⟨_, _, exec_pbSubmit_waits _ _ s hr hf, exec_pbSubmit_waits _ _ s' hr (h.pb ▸ hf), h⟩
      | false =>
        exact ⟨_, _, exec_pbSubmit_accepted _ _ s hr hf, exec_pbSubmit_accepted _ _ s' hr (h.pb ▸ hf),
          (h.mapPb fun p => handoff p ptr len).respond _ _⟩
  | pbStat =>
    refine ⟨_, _, rfl, rfl, ?_⟩
    rw [h.pb]
    exact h.respond _ _
  | pbTick =>
    cases ha : s.pb.armed with
    | false => exact ⟨_, _, exec_pbTick_disarmed s ha, exec_pbTick_disarmed s' (h.pb ▸ ha), h⟩
    | true =>
      cases he : pbEmpty s.pb with
      | true => exact ⟨_, _, exec_pbTick_idle s he, exec_pbTick_idle s' (h.pb ▸ he), h⟩
      | false =>
        exact ⟨_, _, exec_pbTick_drains s ha he, exec_pbTick_drains s' (h.pb ▸ ha) (h.pb ▸ he), h.drainSample⟩
  | capBegin | capEnd | capTake | capStat | capRd | capDmaWr => cases hi

/-! ## What a CAP operation depends on -/

/-- Two states that no CAP operation can tell apart: they agree on the capture unit, on the response, and on the model's
count of resets, which what an unwritten container holds depends on (log entry 6). -/
structure AgreeForCapture (s s' : State) : Prop where
  cap : s.cap = s'.cap
  rsp : s.rsp = s'.rsp
  resets : s.resets = s'.resets

theorem AgreeForCapture.respond {s s' : State} (h : AgreeForCapture s s') (c : RspCode) (d : RspData) :
    AgreeForCapture (respond s c d) (respond s' c d) where
  cap := h.cap
  rsp := rfl
  resets := h.resets

/-- One function applied to both capture units. -/
theorem AgreeForCapture.mapCap {s s' : State} (h : AgreeForCapture s s') (f : CapUnit → CapUnit) :
    AgreeForCapture { s with cap := f s.cap } { s' with cap := f s'.cap } where
  cap := congrArg f h.cap
  rsp := h.rsp
  resets := h.resets

theorem AgreeForCapture.capSample {s s' : State} (h : AgreeForCapture s s') (slot : Slot) (i : Nat) :
    capSample s slot i = capSample s' slot i :=
  capSample_congr s s' slot i (congrArg CapUnit.mem h.cap) h.resets

theorem AgreeForCapture.takeAcc {s s' : State} (h : AgreeForCapture s s') : takeAcc s = takeAcc s' := by
  simp only [Machine.takeAcc, slotMean, slotSum, h.capSample, h.cap]

theorem AgreeForCapture.fillSample {s s' : State} (h : AgreeForCapture s s') (data : Sample) :
    AgreeForCapture (fillSample s data) (fillSample s' data) where
  cap := by simp only [fillSample_cap, capWrite_cap, h.cap]
  rsp := h.rsp
  resets := h.resets

/-- A take sums and corrects the same containers from the same accumulator. -/
theorem AgreeForCapture.takeSlot {s s' : State} (h : AgreeForCapture s s') :
    AgreeForCapture (takeSlot s) (takeSlot s') where
  cap := by simp only [takeSlot_cap, capRewrite_cap, h.capSample, h.takeAcc, h.cap]
  rsp := h.rsp
  resets := h.resets

/-- A CAP operation goes on from both of two states that agree for it, and they still agree. -/
theorem exec_agreeForCapture (i : Instr) (s s' : State) (hi : isPlayback i = false) (h : AgreeForCapture s s') :
    ∃ t t', exec i s = .next t ∧ exec i s' = .next t' ∧ AgreeForCapture t t' := by
  cases i with
  | capBegin pin rate =>
    cases hr : rateRefused rate with
    | true => exact ⟨_, _, exec_capBegin_refused _ _ s hr, exec_capBegin_refused _ _ s' hr, h.respond _ _⟩
    | false =>
      exact ⟨_, _, exec_capBegin_accepted _ _ s hr, exec_capBegin_accepted _ _ s' hr,
        (h.mapCap fun c => { c with
          pin := pin, rate := rate, active := false, cursor := 0, dcAcc := 0, armed := true }).respond _ _⟩
  | capEnd => exact ⟨_, _, rfl, rfl, (h.mapCap fun c => { c with armed := false }).respond _ _⟩
  | capTake =>
    refine ⟨_, _, exec_capTake s, exec_capTake s', ?_⟩
    rw [h.cap]
    exact h.takeSlot.respond _ _
  | capStat =>
    refine ⟨_, _, rfl, rfl, ?_⟩
    rw [h.cap]
    exact h.respond _ _
  | capRd slot index =>
    refine ⟨_, _, rfl, rfl, ?_⟩
    rw [h.capSample]
    exact h.respond _ _
  | capDmaWr data =>
    cases ha : s.cap.armed with
    | false => exact ⟨_, _, exec_capDmaWr_disarmed _ s ha, exec_capDmaWr_disarmed _ s' (h.cap ▸ ha), h⟩
    | true => exact ⟨_, _, exec_capDmaWr_armed _ s ha, exec_capDmaWr_armed _ s' (h.cap ▸ ha), h.fillSample data⟩
  | pbBegin | pbEnd | pbSubmit | pbStat | pbTick => cases hi

/-- Settles O47: what each family writes from the inversion lemmas of `exec`, what it depends on from the two agreement
relations, which every operation of the family keeps. -/
theorem unitsShareNoState : Obligations.UnitsShareNoState := by
  refine ⟨fun i s t hi h => ?_, fun i s t hi h => ?_, fun i s s' t t' hi hpb htrace hrsp hsys hreads h h' => ?_,
    fun i s s' t t' hi hcap hrsp hresets h h' => ?_⟩
  · obtain ⟨_, _, _, hresets⟩ := exec_env i s t h
    exact ⟨exec_playback_cap i s t hi h, hresets⟩
  · have hpb := exec_capture_pb i s t hi h
    obtain ⟨_, _, _, _, rfl⟩ := exec_frame_of_ne_pbTick i s t (ne_pbTick_of_capture i hi) h
    exact ⟨hpb, rfl, rfl, rfl, rfl⟩
  · obtain ⟨u, u', hu, hu', agree⟩ := exec_agreeForPlayback i s s' hi ⟨hpb, htrace, hrsp, hsys, hreads⟩
    cases h.symm.trans hu
    cases h'.symm.trans hu'
    exact ⟨agree.pb, agree.trace, agree.rsp⟩
  · obtain ⟨u, u', hu, hu', agree⟩ := exec_agreeForCapture i s s' hi ⟨hcap, hrsp, hresets⟩
    cases h.symm.trans hu
    cases h'.symm.trans hu'
    exact ⟨agree.cap, agree.rsp⟩

/-! ## One operation in a step -/

/-- Every operation of either unit goes on to a next state. -/
theorem exec_goes_on (i : Instr) (s : State) : ∃ t, exec i s = .next t := by
  cases hi : isPlayback i with
  | true =>
    obtain ⟨t, _, ht, _⟩ := exec_agreeForPlayback i s s hi ⟨rfl, rfl, rfl, rfl, rfl⟩
    exact ⟨t, ht⟩
  | false =>
    obtain ⟨t, _, ht, _⟩ := exec_agreeForCapture i s s hi ⟨rfl, rfl, rfl⟩
    exact ⟨t, ht⟩

/-- With no command presented, the command's turn after an event adds nothing, since the event presents none. -/
theorem andThen_runCommand_of_event (i : Instr) (s : State) (hi : i = .pbTick ∨ ∃ data, i = .capDmaWr data)
    (hw : s.cmdPort = none) : andThen (exec i s) runCommand = exec i s := by
  obtain ⟨t, ht⟩ := exec_goes_on i s
  obtain ⟨hport, _⟩ := exec_event_port i s t hi ht
  rw [ht, andThen_next, runCommand_of_none t (hport.trans hw)]

/-- The tick port is quiet: the step is its beat and its command. -/
theorem runPorts_of_no_tick (h : HwMove) (s : State) (ht : h.tick = 0) :
    runPorts h s = andThen (if h.dma.getLsbD 16 then exec (.capDmaWr (h.dma.extractLsb' 0 16)) s else .next s) runCommand := by
  rw [runPorts_eq, ht, if_neg (by decide), andThen_next]

/-- The DMA port is quiet: the step is its tick and its command. -/
theorem runPorts_of_no_beat (h : HwMove) (s : State) (hd : h.dma.getLsbD 16 = false) :
    runPorts h s = andThen (if h.tick = 1 then exec .pbTick s else .next s) runCommand := by
  simp only [runPorts_eq, hd, Bool.false_eq_true, if_false, andThen_next]

/-- The state in which the operations of a step begin, field by field. -/
theorem stepStart_eq (s : State) :
    stepStart s = { s with
      rsp := none, memAddr := none, dacStrobe := false, hw := s.hw.tail,
      sys := storeBytes s.sys (currentMove s).stores,
      cmdPort := if s.cmdPort = none then s.app.headD none else s.cmdPort,
      app := if s.cmdPort = none then s.app.tail else s.app } := by
  cases hw : s.cmdPort with
  | none =>
    rw [stepStart, presentCommand_of_none _ (by simpa using hw), if_pos rfl, if_pos rfl]
    rfl
  | some w =>
    rw [stepStart, presentCommand_of_some _ w (by simpa using hw), if_neg (by simp), if_neg (by simp), ← hw]
    rfl

/-- Settles O6, one clause for each port. -/
theorem stepRunsTheDecodedInstruction : Obligations.StepRunsTheDecodedInstruction := by
  intro s hrst
  rw [step_of_not_rst s hrst]
  refine ⟨fun w i ht hd hw hi => ?_, fun i hi hd hw => ?_, fun i ht hi hw => ?_, stepStart_eq s⟩
  · rw [runPorts_of_no_tick _ _ ht, hd, if_neg Bool.false_ne_true, andThen_next, runCommand_of_ok _ w i hw hi]
  · obtain ⟨ht, rfl⟩ := (decodeTick_eq_ok _ i).mp hi
    rw [runPorts_of_no_beat _ _ hd, if_pos ht, andThen_runCommand_of_event _ _ (.inl rfl) hw]
  · obtain ⟨hd, rfl⟩ := (decodeDma_eq_ok _ i).mp hi
    rw [runPorts_of_no_tick _ _ ht, if_pos hd, andThen_runCommand_of_event _ _ (.inr ⟨_, rfl⟩) hw]

end Sys2Proof.Machine

/-! The state of the block (10_state.md): its value after reset (R29), what each register changes by (R13, R14, R19, R24),
and the invariants of both units (R27, R28), kept by every operation and by every step. -/

namespace Sys2Proof.Machine

/-! ## The ports of a step, one at a time -/

theorem runTick_cases (b : TickWord) (s t : State) (h : runTick b s = .next t) :
    t = s ∨ (b = 1 ∧ exec .pbTick s = .next t) := by
  rw [runTick_eq] at h
  split_ifs at h with hb
  · exact .inr ⟨hb, h⟩
  · cases h; exact .inl rfl

theorem runDma_cases (d : DmaWord) (s t : State) (h : runDma d s = .next t) :
    t = s ∨ ∃ data, exec (.capDmaWr data) s = .next t := by
  rw [runDma_eq] at h
  split_ifs at h
  · exact .inr ⟨_, h⟩
  · cases h; exact .inl rfl

theorem runCommand_cases (s t : State) (h : runCommand s = .next t) :
    t = s ∨ t = refuseCommand s .illegal ∨
    ∃ w i, s.cmdPort = some w ∧ decodeCmd w = .ok i ∧ exec i s = .next t := by
  cases hw : s.cmdPort with
  | none =>
    rw [runCommand_of_none s hw] at h
    cases h; exact .inl rfl
  | some w =>
    cases hi : decodeCmd w with
    | error r =>
      rw [runCommand_of_error s w r hw hi] at h
      cases h; exact .inr (.inl rfl)
    | ok i =>
      rw [runCommand_of_ok s w i hw hi] at h
      exact .inr (.inr ⟨w, i, rfl, hi, h⟩)

/-- Everything a step without reset can do: its tick, its beat and its command, on the states between them (R104). -/
theorem runPorts_cases (m : HwMove) (s t : State) (h : runPorts m s = .next t) :
    ∃ s₁ s₂, (s₁ = s ∨ (m.tick = 1 ∧ exec .pbTick s = .next s₁)) ∧
      (s₂ = s₁ ∨ ∃ data, exec (.capDmaWr data) s₁ = .next s₂) ∧
      (t = s₂ ∨ t = refuseCommand s₂ .illegal ∨
        ∃ w i, s₂.cmdPort = some w ∧ decodeCmd w = .ok i ∧ exec i s₂ = .next t) := by
  obtain ⟨s₁, htick, h⟩ := (andThen_eq_next _ _ _).mp h
  obtain ⟨s₂, hdma, hcmd⟩ := (andThen_eq_next _ _ _).mp h
  exact ⟨s₁, s₂, runTick_cases _ _ _ htick, runDma_cases _ _ _ hdma, runCommand_cases _ _ hcmd⟩

/-- What every operation and the answer `ILLEGAL` keep, a step without reset keeps. -/
theorem runPorts_keeps (P : State → Prop) (hexec : ∀ i s t, exec i s = .next t → P s → P t)
    (hrefuse : ∀ s, P s → P (refuseCommand s .illegal)) (m : HwMove) (s t : State) (h : runPorts m s = .next t)
    (hs : P s) : P t := by
  obtain ⟨s₁, s₂, htick, hdma, hcmd⟩ := runPorts_cases m s t h
  have h₁ : P s₁ := by
    rcases htick with rfl | ⟨_, h⟩
    · exact hs
    · exact hexec _ _ _ h hs
  have h₂ : P s₂ := by
    rcases hdma with rfl | ⟨_, h⟩
    · exact h₁
    · exact hexec _ _ _ h h₁
  rcases hcmd with rfl | rfl | ⟨_, _, _, _, h⟩
  · exact h₂
  · exact hrefuse _ h₂
  · exact hexec _ _ _ h h₂

/-! ## The tick, and what is the tick's alone -/

theorem exec_pbTick_cases (s t : State) (h : exec .pbTick s = .next t) :
    t = s ∨ (s.pb.armed = true ∧ pbEmpty s.pb = false ∧ t = drainSample s) := by
  cases ha : s.pb.armed with
  | false =>
    rw [exec_pbTick_disarmed s ha] at h
    cases h; exact .inl rfl
  | true =>
    cases he : pbEmpty s.pb with
    | true =>
      rw [exec_pbTick_idle s he] at h
      cases h; exact .inl rfl
    | false =>
      rw [exec_pbTick_drains s ha he] at h
      cases h; exact .inr ⟨rfl, rfl, rfl⟩

/-- The converter output is written by a draining tick alone: every other change of the unit leaves it. -/
theorem exec_dacOut_of_ne_pbTick (i : Instr) (s t : State) (hi : i ≠ .pbTick) (h : exec i s = .next t) :
    t.pb.dacOut = s.pb.dacOut := by
  rcases exec_pb_cases i s t h with
    hpb | ⟨_, _, _, _, _, hpb⟩ | ⟨_, hpb⟩ | ⟨ptr, len, _, _, _, rfl⟩ | ⟨htick, _⟩
  · rw [hpb]
  · rw [hpb]
  · rw [hpb]
  · rcases handoff_cases s.pb ptr len with ⟨_, heq⟩ | ⟨_, heq⟩ <;> simp [heq]
  · exact absurd htick hi

/-- Settles O23: the tick emits one value or does nothing, and no other operation writes the trace or `dac_out`. -/
theorem traceGrowsOnlyByATick : Obligations.TraceGrowsOnlyByATick := by
  intro i s t h
  by_cases hi : i = .pbTick
  · subst hi
    rcases exec_pbTick_cases s t h with rfl | ⟨harmed, _, rfl⟩
    · exact .inl ⟨rfl, rfl⟩
    · exact .inr ⟨rfl, harmed, by simp, rfl⟩
  · have hdac := exec_dacOut_of_ne_pbTick i s t hi h
    obtain ⟨_, _, _, _, rfl⟩ := exec_frame_of_ne_pbTick i s t hi h
    exact .inl ⟨rfl, hdac⟩

/-! ## The address of a read -/

theorem getLsbD_zero_eq_false_iff (a : Addr) : a.getLsbD 0 = false ↔ a.toNat % 2 = 0 := by
  simp [BitVec.getLsbD, Nat.testBit_zero]

theorem tickAddr_toNat (p : PbUnit) :
    (tickAddr p).toNat = ((p.ptr.get p.active).toNat + 2 * p.cursor.toNat) % 2 ^ 32 := by
  rw [tickAddr, sampleAddr, BitVec.toNat_ofNat]
  rfl

/-- From an even pointer every Sample lies at an even address, past the wrap too (R38, R41). -/
theorem tickAddr_even (p : PbUnit) (h : (p.ptr.get p.active).getLsbD 0 = false) : (tickAddr p).getLsbD 0 = false := by
  rw [getLsbD_zero_eq_false_iff] at h ⊢
  rw [tickAddr_toNat]
  omega

theorem PbUnit.Inv.ptr_even {p : PbUnit} (h : p.Inv) (slot : Slot) : (p.ptr.get slot).getLsbD 0 = false := by
  obtain ⟨_, _, ⟨heven₀, heven₁⟩, _⟩ := h
  cases slot
  · exact heven₀
  · exact heven₁

theorem PbUnit.Inv.cursor_lt {p : PbUnit} (h : p.Inv) (hhot : p.len.get p.active ≠ 0) :
    p.cursor.toNat < (p.len.get p.active).toNat := by
  obtain ⟨_, hcursor, _⟩ := h
  exact BitVec.lt_def.mp (hcursor hhot)

/-- Settles O22: the one operation that reads is a tick that drains, and the Sample it reads is the one at the
cursor. -/
theorem readsStayInsideTheHotBuffer : Obligations.ReadsStayInsideTheHotBuffer := by
  intro i s t hinv h hreads
  by_cases hi : i = .pbTick
  · subst hi
    rcases exec_pbTick_cases s t h with rfl | ⟨_, hhot, rfl⟩
    · exact absurd rfl hreads
    · rw [pbEmpty_eq_false] at hhot
      exact ⟨rfl, rfl, s.pb.cursor.toNat, tickAddr s.pb, hinv.cursor_lt hhot, rfl, tickAddr_toNat s.pb,
        tickAddr_even s.pb (hinv.ptr_even _)⟩
  · obtain ⟨_, _, _, _, rfl⟩ := exec_frame_of_ne_pbTick i s t hi h
    exact absurd rfl hreads

/-! ## Descriptors -/

/-- An accepted handoff gives a slot the new descriptor or leaves it the old one. -/
theorem handoff_descriptor (p : PbUnit) (ptr : Addr) (len : Len) (slot : Slot) :
    ((handoff p ptr len).ptr.get slot = ptr ∧ (handoff p ptr len).len.get slot = len) ∨
    ((handoff p ptr len).ptr.get slot = p.ptr.get slot ∧ (handoff p ptr len).len.get slot = p.len.get slot) := by
  rcases handoff_cases p ptr len with ⟨_, heq⟩ | ⟨_, heq⟩ <;> rw [heq]
  · by_cases hs : slot = p.active
    · subst hs; exact .inl ⟨Pair.get_set_same .., Pair.get_set_same ..⟩
    · exact .inr ⟨Pair.get_set_of_ne _ _ _ _ hs, Pair.get_set_of_ne _ _ _ _ hs⟩
  · by_cases hs : slot = !p.active
    · subst hs; exact .inl ⟨Pair.get_set_same .., Pair.get_set_same ..⟩
    · exact .inr ⟨Pair.get_set_of_ne _ _ _ _ hs, Pair.get_set_of_ne _ _ _ _ hs⟩

/-- Settles O21: of the changes of the unit only a handoff writes a descriptor that is not empty. -/
theorem descriptorsComeOnlyFromSubmits : Obligations.DescriptorsComeOnlyFromSubmits := by
  intro i s t slot h hlen hne
  rcases exec_pb_cases i s t h with
    hpb | ⟨_, _, _, _, _, hpb⟩ | ⟨_, hpb⟩ | ⟨ptr, len, rfl, hok, _, rfl⟩ | ⟨_, _, _, rfl⟩
  · exact absurd (by rw [hpb]) hne
  · rw [hpb] at hlen
    cases slot <;> exact absurd rfl hlen
  · exact absurd (by rw [hpb]) hne
  · obtain ⟨_, heven⟩ := (submitRefused_eq_false ptr len).mp hok
    rcases handoff_descriptor s.pb ptr len slot with ⟨hptr, hlen⟩ | ⟨hptr, hlen⟩
    · exact ⟨ptr, len, rfl, heven, hptr, hlen, rfl⟩
    · exact absurd (Prod.ext hptr hlen) hne
  · exact absurd (by simp) hne

/-- Settles O19: a handoff while the hot slot holds a buffer goes to the cold slot, and no tick writes a descriptor. -/
theorem hotBufferIsNeverReplaced : Obligations.HotBufferIsNeverReplaced := by
  intro i s t h hhot hbegin
  rcases exec_pb_cases i s t h with
    hpb | ⟨pin, rate, clk, rfl, _⟩ | ⟨_, hpb⟩ | ⟨ptr, len, _, _, _, rfl⟩ | ⟨htick, _, _, rfl⟩
  · rw [hpb]; exact ⟨rfl, rfl, fun _ => ⟨rfl, rfl⟩⟩
  · exact absurd rfl (hbegin pin rate clk)
  · rw [hpb]; exact ⟨rfl, rfl, fun _ => ⟨rfl, rfl⟩⟩
  · rcases handoff_cases s.pb ptr len with ⟨hempty, _⟩ | ⟨_, hcold⟩
    · exact absurd hempty hhot
    · simp [hcold]
  · exact ⟨by simp, by simp, fun hne => absurd htick hne⟩

/-! ## The selector of the playback unit -/

/-- PB-I5 over operations: the selector changes at a boundary crossing or in an accepted `PB_BEGIN`. -/
theorem exec_pbActive_cases (i : Instr) (s t : State) (h : exec i s = .next t) (hne : t.pb.active ≠ s.pb.active) :
    (i = .pbTick ∧ s.pb.armed = true ∧ s.pb.len.get s.pb.active ≠ 0 ∧
      (s.pb.len.get s.pb.active).toNat ≤ s.pb.cursor.toNat + 1 ∧ t.pb.cursor = 0) ∨
    (∃ pin rate clk, i = .pbBegin pin rate clk ∧ rate ≠ 0 ∧ t.pb.active = true) := by
  rcases exec_pb_cases i s t h with
    hpb | ⟨pin, rate, clk, hi, hrate, hpb⟩ | ⟨_, hpb⟩ | ⟨ptr, len, _, _, _, rfl⟩ | ⟨hi, harmed, hhot, rfl⟩
  · exact absurd (by rw [hpb]) hne
  · exact .inr ⟨pin, rate, clk, hi, hrate, by rw [hpb]⟩
  · exact absurd (by rw [hpb]) hne
  · rcases handoff_cases s.pb ptr len with ⟨_, heq⟩ | ⟨_, heq⟩ <;> exact absurd (by simp [heq]) hne
  · rw [drainSample_pb] at hne ⊢
    rcases advanceCursor_cases { s.pb with dacOut := memRead s (tickAddr s.pb) } with ⟨hend, heq⟩ | ⟨_, heq⟩
    · exact .inl ⟨hi, harmed, (pbEmpty_eq_false s.pb).mp hhot, hend, by rw [heq]⟩
    · exact absurd (by rw [heq]) hne

/-- PB-I5 over the operations of a step: with a quiet tick port only the command can change the selector, and no
command is a tick. -/
theorem runPorts_pbActive_cases (m : HwMove) (s t : State) (h : runPorts m s = .next t)
    (hne : t.pb.active ≠ s.pb.active) :
    m.tick = 1 ∨ ∃ w pin rate clk, s.cmdPort = some w ∧ decodeCmd w = .ok (.pbBegin pin rate clk) ∧ rate ≠ 0 := by
  obtain ⟨s₁, s₂, htick, hdma, hcmd⟩ := runPorts_cases m s t h
  rcases htick.symm with ⟨htick, _⟩ | rfl
  · exact .inl htick
  obtain ⟨hpb, hport⟩ : s₂.pb = s₁.pb ∧ s₂.cmdPort = s₁.cmdPort := by
    rcases hdma with rfl | ⟨data, h⟩
    · exact ⟨rfl, rfl⟩
    · exact ⟨exec_capture_pb _ _ _ rfl h, (exec_event_port _ _ _ (.inr ⟨data, rfl⟩) h).1⟩
  rw [← hpb] at hne
  rcases hcmd with rfl | rfl | ⟨w, i, hw, hi, h⟩
  · exact absurd rfl hne
  · exact absurd rfl hne
  · rcases exec_pbActive_cases i s₂ t h hne with ⟨rfl, _⟩ | ⟨pin, rate, clk, rfl, hrate, _⟩
    · exact absurd hi (decodeCmd_ne_pbTick w)
    · exact .inr ⟨w, pin, rate, clk, hport ▸ hw, hi, hrate⟩

/-- Settles O20: its two clauses are the inversion of the selector over operations and over a step's ports. -/
theorem selectorFlipsOnlyAtABoundary : Obligations.SelectorFlipsOnlyAtABoundary := by
  refine ⟨exec_pbActive_cases, fun s t h hne => ?_⟩
  cases hrst : (currentMove s).rst with
  | true => exact .inl rfl
  | false =>
    rw [step_of_not_rst s hrst] at h
    exact .inr (runPorts_pbActive_cases _ _ _ h (by rwa [stepStart_pb]))

/-! ## The configuration latches -/

theorem clkLatched_of_ne_zero (clk : Option Freq) (h : clkField clk ≠ 0) : clkLatched clk = clkField clk := if_neg h

theorem exec_pbLatches (i : Instr) (s t : State) (h : exec i s = .next t) :
    (t.pb.pin = s.pb.pin ∧ t.pb.rate = s.pb.rate ∧ t.pb.clk = s.pb.clk) ∨
    ∃ pin rate clk, i = .pbBegin pin rate clk ∧ rate ≠ 0 ∧ t.pb.pin = pin ∧ t.pb.rate = rate ∧ t.pb.armed = true ∧
      t.pb.clk = clkLatched clk := by
  rcases exec_pb_cases i s t h with
    hpb | ⟨pin, rate, clk, hi, hrate, hpb⟩ | ⟨_, hpb⟩ | ⟨ptr, len, _, _, _, rfl⟩ | ⟨_, _, _, rfl⟩
  · simp [hpb]
  · exact .inr ⟨pin, rate, clk, hi, hrate, by simp [hpb]⟩
  · simp [hpb]
  · rcases handoff_cases s.pb ptr len with ⟨_, heq⟩ | ⟨_, heq⟩ <;> simp [heq]
  · simp

theorem exec_capLatches (i : Instr) (s t : State) (h : exec i s = .next t) :
    (t.cap.pin = s.cap.pin ∧ t.cap.rate = s.cap.rate) ∨
    ∃ pin rate, i = .capBegin pin rate ∧ rate ≠ 0 ∧ t.cap.pin = pin ∧ t.cap.rate = rate ∧ t.cap.armed = true := by
  rcases exec_cap_cases i s t h with
    hcap | ⟨pin, rate, hi, hrate, hcap⟩ | ⟨_, hcap⟩ | ⟨_, _, _, rfl⟩ | ⟨_, rfl⟩
  · simp [hcap]
  · exact .inr ⟨pin, rate, hi, hrate, by simp [hcap]⟩
  · simp [hcap]
  · exact .inl (by simp)
  · exact .inl ⟨rfl, rfl⟩

/-- Settles O50: the configuration outputs are the latches themselves, and each unit's latches are its own `begin`'s. -/
theorem latchesHoldTheLastBegin : Obligations.LatchesHoldTheLastBegin := by
  intro i s t h
  refine ⟨(exec_pbLatches i s t h).imp_right ?_, exec_capLatches i s t h⟩
  rintro ⟨pin, rate, clk, hi, hrate, hpin, hrate', harmed, hclk⟩
  exact ⟨pin, rate, clk, hi, hrate, hpin, hrate', harmed, fun hne => hclk.trans (clkLatched_of_ne_zero clk hne)⟩

/-! ## The invariant of the capture unit -/

/-- CAP-I2: a container changes by a beat in the hot slot or by a take in the cold slot. -/
theorem exec_capSample_changed (i : Instr) (s t : State) (h : exec i s = .next t) (slot : Slot) (n : Nat) (hn : n < 4096)
    (hne : capSample t slot n ≠ capSample s slot n) :
    ((∃ data, i = .capDmaWr data) ∧ slot = s.cap.active) ∨ (i = .capTake ∧ slot = !s.cap.active) := by
  obtain ⟨_, _, _, hresets⟩ := exec_env i s t h
  rcases exec_cap_cases i s t h with
    hcap | ⟨_, _, _, _, hcap⟩ | ⟨_, hcap⟩ | ⟨data, hi, _, rfl⟩ | ⟨hi, rfl⟩
  · exact absurd (capSample_congr t s slot n (by rw [hcap]) hresets) hne
  · exact absurd (capSample_congr t s slot n (by rw [hcap]) hresets) hne
  · exact absurd (capSample_congr t s slot n (by rw [hcap]) hresets) hne
  · rw [capSample_fillSample] at hne
    split_ifs at hne with hs
    · exact .inl ⟨⟨data, hi⟩, hs.1⟩
    · exact absurd rfl hne
  · have hresp : capSample (respond (takeSlot s) .ok (slotWord (capCold s.cap))) slot n = capSample (takeSlot s) slot n :=
      capSample_congr _ _ slot n rfl rfl
    rw [hresp, capSample_takeSlot s slot n hn] at hne
    split_ifs at hne with hs
    · exact .inr ⟨hi, hs⟩
    · exact absurd rfl hne

/-- CAP-I3: the selector changes by the beat at the last index or by an accepted `CAP_BEGIN`. -/
theorem exec_capActive_cases (i : Instr) (s t : State) (h : exec i s = .next t)
    (hne : t.cap.active ≠ s.cap.active) :
    ((∃ data, i = .capDmaWr data) ∧ s.cap.cursor = 4095 ∧ t.cap.cursor = 0) ∨ (∃ pin rate, i = .capBegin pin rate) := by
  rcases exec_cap_cases i s t h with
    hcap | ⟨pin, rate, hi, _⟩ | ⟨_, hcap⟩ | ⟨data, hi, _, rfl⟩ | ⟨_, rfl⟩
  · exact absurd (by rw [hcap]) hne
  · exact .inr ⟨pin, rate, hi⟩
  · exact absurd (by rw [hcap]) hne
  · rw [fillSample_cap] at hne ⊢
    rcases advanceFill_cases (capWrite s (capHot s.cap) s.cap.cursor.toNat data).cap with ⟨hlast, heq⟩ | ⟨_, heq⟩
    · exact .inl ⟨⟨data, hi⟩, hlast, by rw [heq]⟩
    · exact absurd (by rw [heq]; rfl) hne
  · exact absurd rfl hne

/-- CAP-I4: a beat leaves the accumulator, `CAP_BEGIN` clears it, and the update of a take stays in its range. -/
theorem exec_dcAcc_lt (i : Instr) (s t : State) (h : exec i s = .next t) (hacc : s.cap.dcAcc.toNat < 2 ^ 20) :
    t.cap.dcAcc.toNat < 2 ^ 20 := by
  rcases exec_cap_cases i s t h with
    hcap | ⟨_, _, _, _, hcap⟩ | ⟨_, hcap⟩ | ⟨_, _, _, rfl⟩ | ⟨_, rfl⟩
  · rwa [hcap]
  · rw [hcap]; exact Nat.two_pow_pos 20
  · rwa [hcap]
  · rwa [fillSample_cap, advanceFill_dcAcc]
  · exact (dcNext_toNat _ _ hacc (slotMean_lt s _)).2

/-- Settles O41: CAP-I1 is the width of the cursor, CAP-I2 to CAP-I4 are the three lemmas above. -/
theorem captureUnitKeepsItsInvariants : Obligations.CaptureUnitKeepsItsInvariants :=
  ⟨by decide, fun i s t h =>
    ⟨t.cap.cursor.isLt, exec_capSample_changed i s t h, exec_capActive_cases i s t h, exec_dcAcc_lt i s t h⟩⟩

/-- What holds of both slots and of the new content holds of both slots after a write. -/
theorem Pair.set_both {α : Type} (P : α → Prop) (p : Pair α) (slot : Slot) (v : α) (h₀ : P p.slot0) (h₁ : P p.slot1)
    (hv : P v) : P (p.set slot v).slot0 ∧ P (p.set slot v).slot1 := by
  cases slot
  · exact ⟨hv, h₁⟩
  · exact ⟨h₀, hv⟩

theorem capStoreWf_set (m : Store Sample) (i : CapIndex) (v : Sample) (h : capStoreWf m = true) :
    capStoreWf (Store.set m i.toNat v) = true :=
  Store.wf_set Config.capN i.toNat m v i.isLt h

theorem CapUnit.inv_reset : CapUnit.reset.Inv := by decide

theorem exec_keeps_capInv (i : Instr) (s t : State) (h : exec i s = .next t) (hinv : s.cap.Inv) : t.cap.Inv := by
  obtain ⟨hacc, hwf₀, hwf₁⟩ := hinv
  refine ⟨exec_dcAcc_lt i s t h hacc, ?_⟩
  rcases exec_cap_cases i s t h with
    hcap | ⟨_, _, _, _, hcap⟩ | ⟨_, hcap⟩ | ⟨data, _, _, rfl⟩ | ⟨_, rfl⟩
  · rw [hcap]; exact ⟨hwf₀, hwf₁⟩
  · rw [hcap]; exact ⟨hwf₀, hwf₁⟩
  · rw [hcap]; exact ⟨hwf₀, hwf₁⟩
  · rw [fillSample_cap, advanceFill_mem, capWrite_cap]
    refine Pair.set_both (capStoreWf · = true) _ _ _ hwf₀ hwf₁ (capStoreWf_set _ _ _ ?_)
    cases capHot s.cap
    · exact hwf₀
    · exact hwf₁
  · rw [respond_cap, takeSlot_cap, capRewrite_cap]
    exact Pair.set_both (capStoreWf · = true) _ _ _ hwf₀ hwf₁ (capStoreWf_rewrite _)

/-! ## The invariant of the playback unit -/

theorem PbUnit.inv_reset : PbUnit.reset.Inv := by decide

/-- `PB_BEGIN` empties both slots, so that of the old unit only the pointers count. -/
theorem PbUnit.Inv.begin {p : PbUnit} (h : p.Inv) (pin : Pin) (rate : Rate) (clk : Freq) :
    PbUnit.Inv { p with
      pin := pin, rate := rate, clk := clk, active := true, cursor := 0, len := ⟨0, 0⟩, seen := false, armed := true } := by
  obtain ⟨_, _, heven, _, _⟩ := h
  exact ⟨fun _ => rfl, fun hne => absurd rfl hne, heven, fun _ _ => ⟨rfl, rfl⟩, nofun⟩

theorem PbUnit.Inv.disarm {p : PbUnit} (h : p.Inv) : PbUnit.Inv { p with armed := false } := by
  obtain ⟨hempty, hcursor, heven, _, hfull⟩ := h
  exact ⟨hempty, hcursor, heven, nofun, hfull⟩

theorem len_pos {len : Len} (h : len ≠ 0) : 0 < len := by bv_omega

/-- A handoff of a buffer that passes the operand checks. Primed, the hot slot is at index 0 of a buffer; handed to
the cold slot, the buffer is the pending one. -/
theorem PbUnit.Inv.handoff {p : PbUnit} (h : p.Inv) (ptr : Addr) (len : Len) (hok : submitRefused ptr len = false) :
    (handoff p ptr len).Inv := by
  obtain ⟨hempty, hcursor, ⟨heven₀, heven₁⟩, hfirst, _⟩ := h
  obtain ⟨hlen, heven⟩ := (submitRefused_eq_false ptr len).mp hok
  have heven' (slot : Slot) := Pair.set_both (BitVec.getLsbD · 0 = false) p.ptr slot ptr heven₀ heven₁ heven
  rcases handoff_cases p ptr len with ⟨hhot, heq⟩ | ⟨hhot, heq⟩ <;> rw [heq]
  · refine ⟨fun _ => hempty hhot, fun _ => ?_, heven' _, fun ha h₁ => ?_, fun hs => ?_⟩
    · rw [hempty hhot, Pair.get_set_same]; exact len_pos hlen
    · cases hact : p.active with
      | true => exact absurd (by simpa [hact] using h₁) hlen
      | false =>
        obtain ⟨hact', _⟩ := hfirst ha (by simpa [hact] using h₁)
        exact absurd (hact.symm.trans hact') Bool.false_ne_true
    · exact absurd hs (Bool.not_ne_self _)
  · refine ⟨fun h₀ => absurd (by simpa using h₀) hhot, fun _ => ?_, heven' _, fun _ h₁ => ?_, fun _ _ => ?_⟩
    · simpa using hcursor hhot
    · cases hact : p.active with
      | true => exact absurd (by simpa [hact] using h₁) hhot
      | false => exact absurd (by simpa [hact] using h₁) hlen
    · simpa using hlen

/-- One Sample on from a hot slot that holds a buffer: inside it the cursor stays below the length; at its end the other
slot is hot at index 0, and the drained one still counts as filled. -/
theorem PbUnit.Inv.advanceCursor {p : PbUnit} (h : p.Inv) (hhot : p.len.get p.active ≠ 0) : (advanceCursor p).Inv := by
  obtain ⟨_, _, heven, hfirst, hfull⟩ := h
  rcases advanceCursor_cases p with ⟨_, heq⟩ | ⟨hinside, heq⟩ <;> rw [heq]
  · refine ⟨fun _ => rfl, fun hne => len_pos hne, heven, fun ha h₁ => ?_, fun _ _ => ?_⟩
    · obtain ⟨hact, _⟩ := hfirst ha h₁
      exact absurd (by rw [hact]; exact h₁) hhot
    · simpa using hhot
  · refine ⟨fun h₀ => absurd h₀ hhot, fun _ => ?_, heven, hfirst, hfull⟩
    change p.cursor + 1 < p.len.get p.active
    bv_omega

theorem exec_keeps_pbInv (i : Instr) (s t : State) (h : exec i s = .next t) (hinv : s.pb.Inv) : t.pb.Inv := by
  rcases exec_pb_cases i s t h with
    hpb | ⟨pin, rate, clk, _, _, hpb⟩ | ⟨_, hpb⟩ | ⟨ptr, len, _, hok, _, rfl⟩ | ⟨_, _, hhot, rfl⟩
  · rwa [hpb]
  · rw [hpb]; exact hinv.begin pin rate (clkLatched clk)
  · rw [hpb]; exact hinv.disarm
  · exact hinv.handoff ptr len hok
  · have hemit : PbUnit.Inv { s.pb with dacOut := memRead s (tickAddr s.pb) } := hinv
    exact hemit.advanceCursor ((pbEmpty_eq_false s.pb).mp hhot)

/-! ## The invariant of the machine -/

/-- Every operation keeps the invariant: each unit by its own lemma, SYS because no operation writes it, `dac_out`
because the value a tick emits goes to the trace and to the converter alike. -/
theorem exec_keeps_inv (i : Instr) (s t : State) (h : exec i s = .next t) (hinv : s.Inv) : t.Inv := by
  obtain ⟨hpb, hcap, hsys, hdac⟩ := hinv
  obtain ⟨hsame, _⟩ := exec_env i s t h
  refine ⟨exec_keeps_pbInv i s t h hpb, exec_keeps_capInv i s t h hcap, by rwa [hsame], ?_⟩
  rcases traceGrowsOnlyByATick i s t h with ⟨htrace, hout⟩ | ⟨_, _, htrace, _⟩
  · rw [htrace, hout, hdac]
  · rw [htrace, List.getLastD_concat]

theorem stepStart_keeps_inv (s : State) (h : s.Inv) : (stepStart s).Inv := by
  obtain ⟨hpb, hcap, hsys, hdac⟩ := h
  exact ⟨by rwa [stepStart_pb], by rwa [stepStart_cap], by rw [stepStart_sys]; exact Memory.wf_storeBytes _ _ hsys,
    by rwa [stepStart_pb, stepStart_trace]⟩

/-- A step with `rst` gives both units their reset values, whatever they held; of the old state only SYS counts. -/
theorem resetBlock_inv (s : State) (h : s.sys.wf = true) : (resetBlock s).Inv :=
  ⟨PbUnit.inv_reset, CapUnit.inv_reset, h, rfl⟩

/-- Settles O53: a step with `rst` leaves reset units, any other keeps the invariant from its start over its ports. -/
theorem everyStepKeepsTheInvariant : Obligations.EveryStepKeepsTheInvariant := by
  intro s t hinv h
  cases hrst : (currentMove s).rst with
  | true =>
    obtain ⟨_, _, hsys, _⟩ := hinv
    rw [step_of_rst s hrst] at h
    cases h
    exact resetBlock_inv _ (Memory.wf_storeBytes _ _ hsys)
  | false =>
    rw [step_of_not_rst s hrst] at h
    exact runPorts_keeps State.Inv exec_keeps_inv (fun _ hs => hs) _ _ t h (stepStart_keeps_inv s hinv)

/-! ## The state after reset -/

/-- Settles O12: `State.reset` is written with the values of R29. -/
theorem resetStateHasTheResetValues : Obligations.ResetStateHasTheResetValues :=
  ⟨rfl, rfl, rfl, rfl, rfl, rfl, rfl, rfl⟩

/-- Settles O52: both units have their reset values, SYS lists nothing and nothing has been emitted. -/
theorem resetStateMeetsTheInvariant : Obligations.ResetStateMeetsTheInvariant :=
  ⟨PbUnit.inv_reset, CapUnit.inv_reset, rfl, rfl⟩

end Sys2Proof.Machine

/-! The system memory SYS (20_memory.md): its contents are data in one form (R31), the block reads it little-endian
(R36, R37) and never writes it (R33). -/

namespace Sys2Proof.Machine

/-! ## The canonical form -/

/-- A canonical content lists no address from its bound up. -/
theorem Store.get_eq_none_of_ge_bound {α : Type} (bound lo a : Nat) (m : Store α) (ha : bound ≤ a)
    (hm : Store.rises bound lo m = true) : Store.get m a = none := by
  induction m generalizing lo with
  | nil => rfl
  | cons p m ih =>
    obtain ⟨k, x⟩ := p
    simp only [Store.rises, Bool.and_eq_true, decide_eq_true_eq] at hm
    obtain ⟨⟨_, hk⟩, hrest⟩ := hm
    rw [Store.get_cons, if_neg (by omega)]
    exact ih (k + 1) hrest

/-- Settles O51: an address of 32 bits reads alike by hypothesis, and neither content lists any other. -/
theorem canonicalContentsAreUnique : Obligations.CanonicalContentsAreUnique := by
  intro m n hm hn h
  refine Store.ext_of_rises (2 ^ 32) 0 m n hm hn fun a => ?_
  rcases Nat.lt_or_ge a (2 ^ 32) with ha | ha
  · have hread := h (BitVec.ofNat 32 a)
    rwa [BitVec.toNat_ofNat, Nat.mod_eq_of_lt ha] at hread
  · rw [Store.get_eq_none_of_ge_bound (2 ^ 32) 0 a m ha hm, Store.get_eq_none_of_ge_bound (2 ^ 32) 0 a n ha hn]

/-! ## Stores -/

/-- A byte that none of the stores names is as before. -/
theorem get_storeBytes_of_notMem (m : Memory) (ws : List (Addr × Byte)) (a : Addr) (h : ∀ v, (a, v) ∉ ws) :
    Store.get (storeBytes m ws) a.toNat = Store.get m a.toNat := by
  induction ws generalizing m with
  | nil => rfl
  | cons w ws ih =>
    obtain ⟨b, v⟩ := w
    have hne : a ≠ b := fun hab => h v (hab ▸ List.mem_cons_self)
    calc Store.get (storeBytes (storeByte m b v) ws) a.toNat
        = Store.get (storeByte m b v) a.toNat := ih _ fun u hu => h u (List.mem_cons_of_mem _ hu)
      _ = Store.get m a.toNat := by rw [get_storeByte, if_neg hne]

/-- Over a step SYS changes by the platform's stores of that step and by nothing else, with reset or without (R33). -/
theorem step_sys (s t : State) (h : step s = .next t) : t.sys = storeBytes s.sys (currentMove s).stores := by
  cases hrst : (currentMove s).rst with
  | true =>
    rw [step_of_rst s hrst] at h
    cases h; rfl
  | false =>
    rw [step_of_not_rst s hrst] at h
    have hexec : ∀ i u v, exec i u = .next v → u.sys = (stepStart s).sys → v.sys = (stepStart s).sys :=
      fun i u v huv hu => (exec_env i u v huv).1.trans hu
    have hports : t.sys = (stepStart s).sys :=
      runPorts_keeps (fun u => u.sys = (stepStart s).sys) hexec (fun _ hu => hu) _ _ t h rfl
    rw [hports, stepStart_sys]

/-- Settles O48: no operation changes SYS, all but the tick leave the count of reads, and a step brings in only the
platform's stores. -/
theorem sysIsNeverWritten : Obligations.SysIsNeverWritten := by
  refine ⟨fun i s t h => ⟨fun a => ?_, fun hreads => ?_⟩, fun s t h a hnot => ?_⟩
  · obtain ⟨hsys, _⟩ := exec_env i s t h
    rw [hsys]
  · by_contra hi
    obtain ⟨_, _, _, _, rfl⟩ := exec_frame_of_ne_pbTick i s t hi h
    exact hreads rfl
  · rw [step_sys s t h]
    exact get_storeBytes_of_notMem _ _ a hnot

/-! ## Byte order -/

theorem toNat_append_byte (hi lo : Byte) : (hi ++ lo).toNat = hi.toNat * 256 + lo.toNat := by
  rw [BitVec.toNat_append, ← Nat.shiftLeft_add_eq_or_of_lt lo.isLt, Nat.shiftLeft_eq]

/-- The two addresses of a read differ, also where `a + 1` wraps to 0. -/
theorem addr_ne_succ (a : Addr) : a ≠ a + 1 := by bv_omega

/-- A read after stores of its two bytes finds exactly these. -/
theorem memRead_storeBytes_pair (s : State) (a : Addr) (lo hi : Byte) :
    memRead { s with sys := storeBytes s.sys [(a, lo), (a + 1, hi)] } a = hi ++ lo := by
  apply memRead_of_known
  · change Store.get (storeByte (storeByte s.sys a lo) (a + 1) hi) a.toNat = some lo
    rw [get_storeByte, if_neg (addr_ne_succ a), get_storeByte, if_pos rfl]
  · change Store.get (storeByte (storeByte s.sys a lo) (a + 1) hi) (a + 1).toNat = some hi
    rw [get_storeByte, if_pos rfl]

/-- Settles O49: a read is the high byte above the low one, whether the bytes were known before or have just been
stored. -/
theorem readsAreLittleEndian : Obligations.ReadsAreLittleEndian := by
  refine ⟨fun s a lo hi hlo hhi => ?_, fun s a lo hi => ?_⟩
  · rw [memRead_of_known s a lo hi hlo hhi]
    exact ⟨BitVec.extractLsb'_append_eq_right, BitVec.extractLsb'_append_eq_left⟩
  · rw [memRead_storeBytes_pair, toNat_append_byte]

end Sys2Proof.Machine

/-! Encodings and the command port (30_encoding.md): `decode` and `encode` are inverse to each other on every port (R54 to
R58, R60, R63, R64), each row is its mask and match (R65), and a presented command is accepted exactly when it is ready
(R53). -/

namespace Sys2Proof

/-! ## A command word as its fields -/

/-- A word is assembled from these fields exactly when they are its fields and `rsv` is 0. -/
theorem eq_cmdWord_iff (w : CmdWord) (op : BitVec 8) (pin : Pin) (a b : BitVec 32) :
    w = cmdWord op pin a b ↔ cmdRsv w = 0 ∧ cmdOp w = op ∧ cmdPin w = pin ∧ cmdA w = a ∧ cmdB w = b := by
  constructor
  · rintro rfl
    exact ⟨cmdRsv_cmdWord .., cmdOp_cmdWord .., cmdPin_cmdWord .., cmdA_cmdWord .., cmdB_cmdWord ..⟩
  · rintro ⟨hr, rfl, rfl, rfl, rfl⟩
    exact (cmdWord_of_fields w hr).symm

/-- The zero check of R60 for a command without operands: the word is its opcode and nothing else. -/
theorem eq_cmdWord_of_whenZero {w : CmdWord} {op : BitVec 8} {i j : Instr} (hr : cmdRsv w = 0) (hop : cmdOp w = op)
    (h : whenZero (cmdPin w == 0 && cmdA w == 0 && cmdB w == 0) i = .ok j) : i = j ∧ w = cmdWord op 0 0 0 := by
  obtain ⟨hzero, hij⟩ := (whenZero_eq_ok _ _ _).mp h
  simp only [Bool.and_eq_true, beq_iff_eq] at hzero
  obtain ⟨⟨hp, ha⟩, hb⟩ := hzero
  exact ⟨hij, (eq_cmdWord_iff ..).mpr ⟨hr, hop, hp, ha, hb⟩⟩

/-! ## Decoding, one row with operands at a time (R55, R64) -/

theorem decodeCmd_pbBegin (w : CmdWord) (hr : cmdRsv w = 0) (hop : cmdOp w = 0x01) :
    decodeCmd w = .ok (.pbBegin (cmdPin w) (cmdA w) (clkOfField (cmdB w))) := by simp [decodeCmd, hr, hop]

theorem decodeCmd_pbSubmit (w : CmdWord) (hr : cmdRsv w = 0) (hop : cmdOp w = 0x03) (hp : cmdPin w = 0) :
    decodeCmd w = .ok (.pbSubmit (cmdA w) (cmdB w)) := by simp [decodeCmd, whenZero, hr, hop, hp]

theorem decodeCmd_capBegin (w : CmdWord) (hr : cmdRsv w = 0) (hop : cmdOp w = 0x11) (hb : cmdB w = 0) :
    decodeCmd w = .ok (.capBegin (cmdPin w) (cmdA w)) := by simp [decodeCmd, whenZero, hr, hop, hb]

theorem decodeCmd_capRd (w : CmdWord) (hr : cmdRsv w = 0) (hop : cmdOp w = 0x15) (hp : cmdPin w = 0)
    (ha : capRdHigh (cmdA w) = 0) (hb : cmdB w = 0) :
    decodeCmd w = .ok (.capRd (capRdSlot (cmdA w)) (capRdIndex (cmdA w))) := by
  simp [decodeCmd, whenZero, hr, hop, hp, ha, hb]

/-! ## The two round trips -/

/-- Settles O1: the fields of an assembled word are its operands, and the zero checks find the zeros that `encode`
writes. -/
theorem decodeOfEncodeIsIdentity : Obligations.DecodeOfEncodeIsIdentity := by
  intro i hwf
  cases i with
  | pbBegin pin rate clk =>
    have h := decodeCmd_pbBegin (cmdWord 0x01 pin rate (clkField clk)) (by simp) (by simp)
    simpa [encode, decode, clkOfField_clkField clk hwf] using h
  | pbSubmit ptr len =>
    have h := decodeCmd_pbSubmit (cmdWord 0x03 0 ptr len) (by simp) (by simp) (by simp)
    simpa [encode, decode] using h
  | capBegin pin rate =>
    have h := decodeCmd_capBegin (cmdWord 0x11 pin rate 0) (by simp) (by simp) (by simp)
    simpa [encode, decode] using h
  | capRd slot index =>
    have h := decodeCmd_capRd (cmdWord 0x15 0 (capRdField slot index) 0) (by simp) (by simp) (by simp) (by simp) (by simp)
    simpa [encode, decode] using h
  | capDmaWr data => exact (decodeDma_eq_ok _ _).mpr ⟨getLsbD_dmaWord data, by rw [extractLsb_dmaWord]⟩
  | pbEnd | pbStat | capEnd | capTake | capStat | pbTick => decide

/-- A command word that decodes is the encoding of a well-formed operation: one case for each opcode of R55. -/
theorem encode_of_decodeCmd (w : CmdWord) (i : Instr) (h : decodeCmd w = .ok i) :
    i.wellFormed = true ∧ encode i = .cmd w := by
  have hr := cmdRsv_of_decodeCmd w i h
  unfold decodeCmd at h
  rw [if_neg (not_not.mpr hr)] at h
  split_ifs at h with h01 h02 h03 h04 h11 h12 h13 h14 h15
  · cases h
    refine ⟨clkWellFormed_clkOfField _, congrArg PortWord.cmd ?_⟩
    exact ((eq_cmdWord_iff ..).mpr ⟨hr, h01, rfl, rfl, (clkField_clkOfField _).symm⟩).symm
  · obtain ⟨rfl, rfl⟩ := eq_cmdWord_of_whenZero hr h02 h
    exact ⟨rfl, rfl⟩
  · obtain ⟨hp, rfl⟩ := (whenZero_eq_ok _ _ _).mp h
    refine ⟨rfl, congrArg PortWord.cmd ?_⟩
    exact ((eq_cmdWord_iff ..).mpr ⟨hr, h03, beq_iff_eq.mp hp, rfl, rfl⟩).symm
  · obtain ⟨rfl, rfl⟩ := eq_cmdWord_of_whenZero hr h04 h
    exact ⟨rfl, rfl⟩
  · obtain ⟨hb, rfl⟩ := (whenZero_eq_ok _ _ _).mp h
    refine ⟨rfl, congrArg PortWord.cmd ?_⟩
    exact ((eq_cmdWord_iff ..).mpr ⟨hr, h11, rfl, rfl, beq_iff_eq.mp hb⟩).symm
  · obtain ⟨rfl, rfl⟩ := eq_cmdWord_of_whenZero hr h12 h
    exact ⟨rfl, rfl⟩
  · obtain ⟨rfl, rfl⟩ := eq_cmdWord_of_whenZero hr h13 h
    exact ⟨rfl, rfl⟩
  · obtain ⟨rfl, rfl⟩ := eq_cmdWord_of_whenZero hr h14 h
    exact ⟨rfl, rfl⟩
  · obtain ⟨hzero, rfl⟩ := (whenZero_eq_ok _ _ _).mp h
    simp only [Bool.and_eq_true, beq_iff_eq] at hzero
    obtain ⟨⟨hp, hb⟩, ha⟩ := hzero
    refine ⟨rfl, congrArg PortWord.cmd ?_⟩
    exact ((eq_cmdWord_iff ..).mpr ⟨hr, h15, hp, (capRdField_of_parts _ ha).symm, hb⟩).symm

/-- The DMA word with `dma_valid = 1` is that bit above its data (R58). -/
theorem dmaWord_of_parts (d : DmaWord) (h : d.getLsbD 16 = true) : (1#1 ++ d.extractLsb' 0 16 : DmaWord) = d := by
  apply BitVec.eq_of_getLsbD_eq
  intro i hi
  have happ : (1#1 ++ d.extractLsb' 0 16).getLsbD i =
      if i < 16 then (d.extractLsb' 0 16).getLsbD i else (1#1).getLsbD (i - 16) := BitVec.getLsbD_append
  refine happ.trans ?_
  split_ifs with hlow
  · simp [hlow]
  · obtain rfl : i = 16 := by omega
    exact h.symm

/-- Settles O2, one port at a time. -/
theorem encodeOfDecodeIsIdentity : Obligations.EncodeOfDecodeIsIdentity := by
  intro p i h
  cases p with
  | cmd w => exact encode_of_decodeCmd w i h
  | tck b =>
    obtain ⟨rfl, rfl⟩ := (decodeTick_eq_ok _ _).mp h
    exact ⟨rfl, rfl⟩
  | dmw d =>
    obtain ⟨hvalid, rfl⟩ := (decodeDma_eq_ok _ _).mp h
    exact ⟨rfl, congrArg PortWord.dmw (dmaWord_of_parts d hvalid)⟩

/-- Both round trips at once. -/
theorem decode_eq_ok_iff (p : PortWord) (i : Instr) : decode p = .ok i ↔ i.wellFormed = true ∧ encode i = p := by
  constructor
  · exact encodeOfDecodeIsIdentity p i
  · rintro ⟨hwf, rfl⟩
    exact decodeOfEncodeIsIdentity i hwf

/-! ## Masks and matches (R65) -/

/-- Every operation's word lies under its row. -/
theorem rowMatch (i : Instr) : Laws.RowMatch.Statement i := by
  cases i with
  | pbBegin pin rate clk => exact Laws.RowMatch.pbBegin pin rate clk
  | pbEnd => exact Laws.RowMatch.pbEnd
  | pbSubmit ptr len => exact Laws.RowMatch.pbSubmit ptr len
  | pbStat => exact Laws.RowMatch.pbStat
  | capBegin pin rate => exact Laws.RowMatch.capBegin pin rate
  | capEnd => exact Laws.RowMatch.capEnd
  | capTake => exact Laws.RowMatch.capTake
  | capStat => exact Laws.RowMatch.capStat
  | capRd slot index => exact Laws.RowMatch.capRd slot index
  | pbTick => exact Laws.RowMatch.pbTick
  | capDmaWr data => exact Laws.RowMatch.capDmaWr data

/-- A port word that decodes lies under the row of its operation. -/
theorem matchesRow_of_decode (p : PortWord) (i : Instr) (h : decode p = .ok i) :
    Laws.matchesRow p (Laws.rowPattern i) = true := by
  obtain ⟨_, rfl⟩ := encodeOfDecodeIsIdentity p i h
  exact rowMatch i

/-- A command word that decodes meets its row's mask and match. -/
theorem and_mask_of_decodeCmd {w m v : CmdWord} {i : Instr} (hrow : Laws.rowPattern i = .cmd m v)
    (h : decodeCmd w = .ok i) : w &&& m = v := by
  have hmatch := matchesRow_of_decode (.cmd w) i h
  rw [hrow] at hmatch
  exact beq_iff_eq.mp hmatch

/-- Where a mask is all ones, the word's field is that of the match. -/
theorem field_of_and_mask {n : Nat} {w m v : BitVec n} (h : w &&& m = v) (start len : Nat)
    (hm : m.extractLsb' start len = BitVec.allOnes len) : w.extractLsb' start len = v.extractLsb' start len := by
  rw [← h, BitVec.extractLsb'_and, hm, BitVec.and_allOnes]

/-- A row whose mask is all ones has one word. -/
theorem decodeCmd_eq_ok_iff_and_mask (w v : CmdWord) (i : Instr) (hwf : i.wellFormed = true) (henc : encode i = .cmd v) :
    decodeCmd w = .ok i ↔ w &&& 0xFFFFFFFFFFFFFFFFFFFFFFFF = v := by
  have hmask : w &&& 0xFFFFFFFFFFFFFFFFFFFFFFFF = w := BitVec.and_allOnes
  rw [hmask]
  refine (decode_eq_ok_iff (.cmd w) i).trans ?_
  rw [henc, PortWord.cmd.injEq, and_iff_right hwf, eq_comm]

theorem pbBegin_iff_mask (w : CmdWord) :
    (∃ pin rate clk, decodeCmd w = .ok (.pbBegin pin rate clk)) ↔ w &&& 0x0000000000000000FFFF00FF = 0x01 := by
  constructor
  · rintro ⟨pin, rate, clk, h⟩
    exact and_mask_of_decodeCmd rfl h
  · intro h
    exact ⟨_, _, _, decodeCmd_pbBegin w (field_of_and_mask h 16 16 (by decide)) (field_of_and_mask h 0 8 (by decide))⟩

theorem pbSubmit_iff_mask (w : CmdWord) :
    (∃ ptr len, decodeCmd w = .ok (.pbSubmit ptr len)) ↔ w &&& 0x0000000000000000FFFFFFFF = 0x03 := by
  constructor
  · rintro ⟨ptr, len, h⟩
    exact and_mask_of_decodeCmd rfl h
  · intro h
    exact ⟨_, _, decodeCmd_pbSubmit w (field_of_and_mask h 16 16 (by decide)) (field_of_and_mask h 0 8 (by decide))
      (field_of_and_mask h 8 8 (by decide))⟩

theorem capBegin_iff_mask (w : CmdWord) :
    (∃ pin rate, decodeCmd w = .ok (.capBegin pin rate)) ↔ w &&& 0xFFFFFFFF00000000FFFF00FF = 0x11 := by
  constructor
  · rintro ⟨pin, rate, h⟩
    exact and_mask_of_decodeCmd rfl h
  · intro h
    exact ⟨_, _, decodeCmd_capBegin w (field_of_and_mask h 16 16 (by decide)) (field_of_and_mask h 0 8 (by decide))
      (field_of_and_mask h 64 32 (by decide))⟩

/-- The high bits of operand A, as bits of the word. -/
theorem capRdHigh_cmdA (w : CmdWord) : capRdHigh (cmdA w) = w.extractLsb' 45 19 := by
  apply BitVec.eq_of_getLsbD_eq
  intro i hi
  have hlt : 13 + i < 32 := by omega
  have hadd : 32 + (13 + i) = 45 + i := by omega
  simp only [capRdHigh, cmdA, BitVec.getLsbD_extractLsb', hlt, hadd, decide_true, Bool.true_and]

theorem capRd_iff_mask (w : CmdWord) :
    (∃ slot index, decodeCmd w = .ok (.capRd slot index)) ↔ w &&& 0xFFFFFFFFFFFFE000FFFFFFFF = 0x15 := by
  constructor
  · rintro ⟨slot, index, h⟩
    exact and_mask_of_decodeCmd rfl h
  · intro h
    exact ⟨_, _, decodeCmd_capRd w (field_of_and_mask h 16 16 (by decide)) (field_of_and_mask h 0 8 (by decide))
      (field_of_and_mask h 8 8 (by decide)) ((capRdHigh_cmdA w).trans (field_of_and_mask h 45 19 (by decide)))
      (field_of_and_mask h 64 32 (by decide))⟩

theorem pbTick_iff_mask (b : TickWord) : decodeTick b = .ok .pbTick ↔ b &&& 1 = 1 := by
  have hmask : b &&& 1 = b := BitVec.and_allOnes
  rw [hmask, decodeTick_eq_ok, and_iff_left rfl]

theorem capDmaWr_iff_mask (d : DmaWord) :
    (∃ data, decodeDma d = .ok (.capDmaWr data)) ↔ d &&& 0x10000 = 0x10000 := by
  constructor
  · rintro ⟨data, h⟩
    exact beq_iff_eq.mp (matchesRow_of_decode (.dmw d) _ h)
  · intro h
    have hbit : (d &&& 0x10000).getLsbD 16 = true := by rw [h]; decide
    rw [BitVec.getLsbD_and, Bool.and_eq_true] at hbit
    obtain ⟨hvalid, _⟩ := hbit
    exact ⟨_, (decodeDma_eq_ok _ _).mpr ⟨hvalid, rfl⟩⟩

/-- Settles O3, one lemma for each row; the five rows without operands have a mask of all ones. -/
theorem rowsAreTheirMaskAndMatch : Obligations.RowsAreTheirMaskAndMatch :=
  ⟨fun w => ⟨pbBegin_iff_mask w, decodeCmd_eq_ok_iff_and_mask w _ .pbEnd rfl rfl, pbSubmit_iff_mask w,
      decodeCmd_eq_ok_iff_and_mask w _ .pbStat rfl rfl, capBegin_iff_mask w,
      decodeCmd_eq_ok_iff_and_mask w _ .capEnd rfl rfl, decodeCmd_eq_ok_iff_and_mask w _ .capTake rfl rfl,
      decodeCmd_eq_ok_iff_and_mask w _ .capStat rfl rfl, capRd_iff_mask w⟩,
    pbTick_iff_mask, capDmaWr_iff_mask⟩

/-- Settles O4: each word is a closed term, which the decoder evaluates. -/
theorem writtenOutWordsDecode : Obligations.WrittenOutWordsDecode :=
  ⟨rfl, rfl, rfl, rfl, rfl, rfl, rfl, rfl⟩

/-! ## Which command words are legal (R60) -/

/-- The operand-free commands decode from their opcode alone. -/
theorem decodeCmd_of_zero_operands (w : CmdWord) (op : BitVec 8) (i : Instr) (hwf : i.wellFormed = true)
    (henc : encode i = .cmd (cmdWord op 0 0 0)) (hr : cmdRsv w = 0) (hop : cmdOp w = op) (hp : cmdPin w = 0)
    (ha : cmdA w = 0) (hb : cmdB w = 0) : decodeCmd w = .ok i := by
  refine (decode_eq_ok_iff (.cmd w) i).mpr ⟨hwf, ?_⟩
  rw [henc, (eq_cmdWord_iff ..).mpr ⟨hr, hop, hp, ha, hb⟩]

/-- What R60 asks of the fields of a legal word, opcode by opcode. -/
def LegalFields (w : CmdWord) : Prop :=
  cmdRsv w = 0 ∧
    (cmdOp w = 0x01 ∨ (cmdOp w = 0x03 ∧ cmdPin w = 0) ∨ (cmdOp w = 0x11 ∧ cmdB w = 0) ∨
      ((cmdOp w = 0x02 ∨ cmdOp w = 0x04 ∨ cmdOp w = 0x12 ∨ cmdOp w = 0x13 ∨ cmdOp w = 0x14) ∧
        cmdPin w = 0 ∧ cmdA w = 0 ∧ cmdB w = 0) ∨
      (cmdOp w = 0x15 ∧ cmdPin w = 0 ∧ capRdHigh (cmdA w) = 0 ∧ cmdB w = 0))

/-- The word of an operation on the command port has legal fields. -/
theorem legalFields_of_encode (w : CmdWord) (i : Instr) (h : encode i = .cmd w) : LegalFields w := by
  cases i with
  | pbTick | capDmaWr => cases h
  | pbBegin | pbEnd | pbSubmit | pbStat | capBegin | capEnd | capTake | capStat | capRd =>
    cases h
    simp [LegalFields]

theorem exists_decodeCmd_of_legalFields (w : CmdWord) (h : LegalFields w) : ∃ i, decodeCmd w = .ok i := by
  obtain ⟨hr, hop | ⟨hop, hp⟩ | ⟨hop, hb⟩ | ⟨hop, hp, ha, hb⟩ | ⟨hop, hp, ha, hb⟩⟩ := h
  · exact ⟨_, decodeCmd_pbBegin w hr hop⟩
  · exact ⟨_, decodeCmd_pbSubmit w hr hop hp⟩
  · exact ⟨_, decodeCmd_capBegin w hr hop hb⟩
  · rcases hop with hop | hop | hop | hop | hop
    · exact ⟨.pbEnd, decodeCmd_of_zero_operands w _ _ rfl rfl hr hop hp ha hb⟩
    · exact ⟨.pbStat, decodeCmd_of_zero_operands w _ _ rfl rfl hr hop hp ha hb⟩
    · exact ⟨.capEnd, decodeCmd_of_zero_operands w _ _ rfl rfl hr hop hp ha hb⟩
    · exact ⟨.capTake, decodeCmd_of_zero_operands w _ _ rfl rfl hr hop hp ha hb⟩
    · exact ⟨.capStat, decodeCmd_of_zero_operands w _ _ rfl rfl hr hop hp ha hb⟩
  · exact ⟨_, decodeCmd_capRd w hr hop hp ha hb⟩

theorem exists_decodeCmd_iff_legalFields (w : CmdWord) : (∃ i, decodeCmd w = .ok i) ↔ LegalFields w := by
  constructor
  · rintro ⟨i, hi⟩
    obtain ⟨_, henc⟩ := encode_of_decodeCmd w i hi
    exact legalFields_of_encode w i henc
  · exact exists_decodeCmd_of_legalFields w

end Sys2Proof

namespace Sys2Proof.Machine

/-! ## `cmd_ready` (R53) -/

theorem cmdReady_of_error (s : State) (w : CmdWord) (r : NotAnOperation) (h : decodeCmd w = .error r) :
    cmdReady s w = true := by simp only [cmdReady, h]

theorem cmdReady_of_pbSubmit (s : State) (w : CmdWord) (ptr : Addr) (len : Len)
    (h : decodeCmd w = .ok (.pbSubmit ptr len)) : cmdReady s w = (submitRefused ptr len || !pbFull s.pb) := by
  simp only [cmdReady, h]

/-- The one command that is not ready. -/
theorem cmdReady_eq_false_iff (s : State) (w : CmdWord) :
    cmdReady s w = false ↔
      ∃ ptr len, decodeCmd w = .ok (.pbSubmit ptr len) ∧ submitRefused ptr len = false ∧ pbFull s.pb = true := by
  constructor
  · intro hready
    unfold cmdReady at hready
    split at hready
    next ptr len hdec =>
      rw [Bool.or_eq_false_iff, Bool.not_eq_false'] at hready
      exact ⟨ptr, len, hdec, hready⟩
    next => cases hready
  · rintro ⟨ptr, len, hdec, hrefused, hfull⟩
    rw [cmdReady_of_pbSubmit s w ptr len hdec, hrefused, hfull]
    rfl

/-- Settles O5: the legal words by their fields, and the answer to any other. -/
theorem illegalWordsAnswerIllegal : Obligations.IllegalWordsAnswerIllegal := by
  refine ⟨exists_decodeCmd_iff_legalFields, fun s w hw hillegal => ?_⟩
  cases hdec : decodeCmd w with
  | ok i => exact absurd ⟨i, hdec⟩ hillegal
  | error r => exact ⟨cmdReady_of_error s w r hdec, runCommand_of_error s w r hw hdec⟩

/-! ## The command port's turn -/

/-- A command other than `PB_SUBMIT` completes with a response. -/
theorem exec_responds (i : Instr) (s : State) (htick : i ≠ .pbTick) (hbeat : ∀ data, i ≠ .capDmaWr data)
    (hsubmit : ∀ ptr len, i ≠ .pbSubmit ptr len) : ∃ u code data, exec i s = .next (respond u code data) := by
  cases i with
  | pbTick => exact absurd rfl htick
  | capDmaWr data => exact absurd rfl (hbeat data)
  | pbSubmit ptr len => exact absurd rfl (hsubmit ptr len)
  | pbBegin pin rate clk =>
    cases hr : rateRefused rate with
    | true => exact ⟨_, _, _, exec_pbBegin_refused pin rate clk s hr⟩
    | false => exact ⟨_, _, _, exec_pbBegin_accepted pin rate clk s hr⟩
  | capBegin pin rate =>
    cases hr : rateRefused rate with
    | true => exact ⟨_, _, _, exec_capBegin_refused pin rate s hr⟩
    | false => exact ⟨_, _, _, exec_capBegin_accepted pin rate s hr⟩
  | pbEnd | pbStat | capEnd | capTake | capStat | capRd => exact ⟨_, _, _, rfl⟩

/-- A `PB_SUBMIT` that is refused, or that finds the handshake free, completes with a response. -/
theorem exec_pbSubmit_responds (ptr : Addr) (len : Len) (s : State) (h : (submitRefused ptr len || !pbFull s.pb) = true) :
    ∃ u code data, exec (.pbSubmit ptr len) s = .next (respond u code data) := by
  cases hr : submitRefused ptr len with
  | true => exact ⟨_, _, _, exec_pbSubmit_refused ptr len s hr⟩
  | false =>
    have hf : pbFull s.pb = false := by simpa [hr] using h
    exact ⟨_, _, _, exec_pbSubmit_accepted ptr len s hr hf⟩

/-- A ready command is accepted: its turn ends in a response, which frees the port. -/
theorem runCommand_of_ready (s : State) (w : CmdWord) (hw : s.cmdPort = some w) (hready : cmdReady s w = true) :
    ∃ u code data, runCommand s = .next (respond u code data) := by
  cases hdec : decodeCmd w with
  | error r => exact ⟨_, _, _, runCommand_of_error s w r hw hdec⟩
  | ok i =>
    rw [runCommand_of_ok s w i hw hdec]
    by_cases hsubmit : ∃ ptr len, i = .pbSubmit ptr len
    · obtain ⟨ptr, len, rfl⟩ := hsubmit
      rw [cmdReady_of_pbSubmit s w ptr len hdec] at hready
      exact exec_pbSubmit_responds ptr len s hready
    · refine exec_responds i s ?_ ?_ fun ptr len hi => hsubmit ⟨ptr, len, hi⟩
      · rintro rfl
        exact decodeCmd_ne_pbTick w hdec
      · rintro data rfl
        exact decodeCmd_ne_capDmaWr w data hdec

/-- A command that is not ready takes no step and stays on the port. -/
theorem runCommand_of_not_ready (s : State) (w : CmdWord) (hw : s.cmdPort = some w) (hready : cmdReady s w = false) :
    runCommand s = .next s := by
  obtain ⟨ptr, len, hdec, hrefused, hfull⟩ := (cmdReady_eq_false_iff s w).mp hready
  rw [runCommand_of_ok s w _ hw hdec, exec_pbSubmit_waits ptr len s hrefused hfull]

/-- Settles O9: the turn of a ready command and of one that is not. -/
theorem commandsAreAcceptedWhenReady : Obligations.CommandsAreAcceptedWhenReady := by
  intro s w hw
  refine ⟨?_, fun hready => ?_, runCommand_of_not_ready s w hw, stepStart_cmdPort_of_some s w hw⟩
  · simp only [cmdReady_eq_false_iff, submitRefused_eq_false, and_assoc]
  · obtain ⟨u, code, data, hrun⟩ := runCommand_of_ready s w hw hready
    exact ⟨_, _, hrun, respond_cmdPort .., respond_rsp ..⟩

/-! ## What stays on the port over a step -/

/-- A word is still on the port after the command's turn only if the turn did nothing, for a word that was not ready. -/
theorem runCommand_port (s t : State) (w : CmdWord) (h : runCommand s = .next t) (hw : t.cmdPort = some w) :
    t = s ∧ cmdReady s w = false := by
  cases hport : s.cmdPort with
  | none =>
    rw [runCommand_of_none s hport] at h
    cases h
    cases hport.symm.trans hw
  | some v =>
    cases hready : cmdReady s v with
    | true =>
      obtain ⟨u, code, data, hrun⟩ := runCommand_of_ready s v hport hready
      cases hrun.symm.trans h
      cases hw
    | false =>
      cases (runCommand_of_not_ready s v hport hready).symm.trans h
      cases hport.symm.trans hw
      exact ⟨rfl, hready⟩

theorem runTick_rsp (b : TickWord) (s t : State) (h : runTick b s = .next t) : t.rsp = s.rsp := by
  rcases runTick_cases b s t h with rfl | ⟨_, htick⟩
  · rfl
  · exact (exec_event_port _ s t (.inl rfl) htick).2

theorem runDma_rsp (d : DmaWord) (s t : State) (h : runDma d s = .next t) : t.rsp = s.rsp := by
  rcases runDma_cases d s t h with rfl | ⟨data, hbeat⟩
  · rfl
  · exact (exec_event_port _ s t (.inr ⟨data, rfl⟩) hbeat).2

/-- Settles O10: a step with `rst` frees the port, and in any other the waiting command did nothing and the tick and the
beat before it gave no response. -/
theorem onlyAFullSubmitStaysOnThePort : Obligations.OnlyAFullSubmitStaysOnThePort := by
  intro s t w h hw
  cases hrst : (currentMove s).rst with
  | true =>
    rw [step_of_rst s hrst] at h
    cases h
    cases hw
  | false =>
    rw [step_of_not_rst s hrst] at h
    obtain ⟨s₁, htick, h⟩ := (andThen_eq_next _ _ _).mp h
    obtain ⟨s₂, hdma, hcmd⟩ := (andThen_eq_next _ _ _).mp h
    obtain ⟨rfl, hready⟩ := runCommand_port s₂ t w hcmd hw
    refine ⟨hready, ?_⟩
    calc t.rsp = s₁.rsp := runDma_rsp _ _ _ hdma
      _ = (stepStart s).rsp := runTick_rsp _ _ _ htick
      _ = none := stepStart_rsp s

end Sys2Proof.Machine

/-! The playback operations (40_playback_ops.md R72 to R86): each command and the tick as one next state, the descriptors
while `pb_full`, what a run of ticks emits, the schedule of R82, and the end of a waiting `PB_SUBMIT`. -/

namespace Sys2Proof.Machine

/-! ## The commands (R72, R73, R75, R78) -/

/-- Settles O14, from the two branches of `PB_BEGIN`. -/
theorem pbBeginArmsPlayback : Obligations.PbBeginArmsPlayback := by
  refine fun pin rate clk s => ⟨fun h => ?_, fun h => ?_⟩
  · rw [exec_pbBegin_refused pin rate clk s ((rateRefused_iff rate).mpr h)]
    rfl
  · rw [exec_pbBegin_accepted pin rate clk s (by rwa [← Bool.not_eq_true, rateRefused_iff])]
    rfl

/-- Settles O15. -/
theorem pbEndDisarmsPlayback : Obligations.PbEndDisarmsPlayback := fun _ => rfl

/-- The status word, bit by bit (R22). -/
theorem pbStatWord_bits (p : PbUnit) :
    (pbStatWord p).getLsbD 0 = p.armed ∧ (pbStatWord p).getLsbD 1 = p.active ∧ (pbStatWord p).getLsbD 2 = p.seen ∧
    (pbStatWord p).getLsbD 3 = pbFull p ∧ (pbStatWord p).getLsbD 4 = pbEmpty p ∧
    (pbStatWord p).extractLsb' 5 27 = 0 := by
  unfold pbStatWord
  generalize pbEmpty p = empty, pbFull p = full, p.seen = seen, p.active = active, p.armed = armed
  revert empty full seen active armed
  decide

/-- Settles O17, from the bits of the status word and the predicates of R18. -/
theorem pbStatReportsTheHandshake : Obligations.PbStatReportsTheHandshake := by
  intro s
  obtain ⟨harmed, hactive, hseen, hfull, hempty, hrest⟩ := pbStatWord_bits s.pb
  exact ⟨pbStatWord s.pb, rfl, harmed, hactive, hseen, by rw [hfull, pbFull_iff], by rw [hempty, pbEmpty_iff], hrest⟩

/-- A valid submit into an empty hot slot primes it (R78). -/
theorem exec_pbSubmit_primes (ptr : Addr) (len : Len) (s : State) (hok : submitRefused ptr len = false)
    (hempty : s.pb.len.get s.pb.active = 0) :
    exec (.pbSubmit ptr len) s = .next (respond { s with pb := { s.pb with
      ptr := s.pb.ptr.set s.pb.active ptr, len := s.pb.len.set s.pb.active len, seen := !s.pb.active } } .ok 0) := by
  have hfull : pbFull s.pb = false := by simp [pbFull, (pbEmpty_iff s.pb).mpr hempty]
  rw [exec_pbSubmit_accepted ptr len s hok hfull]
  rcases handoff_cases s.pb ptr len with ⟨_, heq⟩ | ⟨hhot, _⟩
  · rw [heq]
  · exact absurd hempty hhot

/-- A valid submit while the hot slot holds a buffer and nothing is pending goes to the cold slot (R78). -/
theorem exec_pbSubmit_hands_off (ptr : Addr) (len : Len) (s : State) (hok : submitRefused ptr len = false)
    (hseen : s.pb.seen ≠ s.pb.active) (hhot : s.pb.len.get s.pb.active ≠ 0) :
    exec (.pbSubmit ptr len) s = .next (respond { s with pb := { s.pb with
      ptr := s.pb.ptr.set (!s.pb.active) ptr, len := s.pb.len.set (!s.pb.active) len, seen := s.pb.active } } .ok 0) := by
  rw [exec_pbSubmit_accepted ptr len s hok (pbFull_of_seen_ne s.pb hseen)]
  rcases handoff_cases s.pb ptr len with ⟨hempty, _⟩ | ⟨_, heq⟩
  · exact absurd hempty hhot
  · rw [heq]

/-- Settles O18, one lemma for each of the four cases. -/
theorem pbSubmitHandsABufferOver : Obligations.PbSubmitHandsABufferOver := by
  refine fun ptr len s => ⟨fun h => ?_, fun hlen heven hseen hhot => ?_, fun hlen heven hempty => ?_,
    fun hlen heven hseen hhot => ?_⟩
  · exact exec_pbSubmit_refused ptr len s ((submitRefused_iff ptr len).mpr h)
  · exact exec_pbSubmit_waits ptr len s ((submitRefused_eq_false ptr len).mpr ⟨hlen, heven⟩)
      ((pbFull_iff s.pb).mpr ⟨hseen, hhot⟩)
  · exact exec_pbSubmit_primes ptr len s ((submitRefused_eq_false ptr len).mpr ⟨hlen, heven⟩) hempty
  · exact exec_pbSubmit_hands_off ptr len s ((submitRefused_eq_false ptr len).mpr ⟨hlen, heven⟩) hseen hhot

/-! ## The tick (R74) -/

/-- A tick before the last Sample of the hot buffer: the cursor goes on by one. -/
theorem exec_pbTick_inside (s : State) (harmed : s.pb.armed = true)
    (hin : s.pb.cursor.toNat + 1 < (s.pb.len.get s.pb.active).toNat) :
    exec .pbTick s = .next { s with
      pb := { s.pb with cursor := s.pb.cursor + 1, dacOut := memRead s (tickAddr s.pb) },
      trace := s.trace ++ [memRead s (tickAddr s.pb)], memAddr := some (tickAddr s.pb), dacStrobe := true,
      sysReads := s.sysReads + 1 } := by
  have hhot : pbEmpty s.pb = false := (pbEmpty_eq_false s.pb).mpr fun h => by simp [h] at hin
  rw [exec_pbTick_drains s harmed hhot]
  rcases advanceCursor_cases { s.pb with dacOut := memRead s (tickAddr s.pb) } with ⟨hend, _⟩ | ⟨_, heq⟩
  · exact absurd hin (Nat.not_lt.mpr hend)
  · exact congrArg (fun p => Host.Outcome.next { drainSample s with pb := p }) heq

/-- The tick of the last Sample of the hot buffer: the cursor goes back to 0 and the selector flips. -/
theorem exec_pbTick_last (s : State) (harmed : s.pb.armed = true) (hhot : s.pb.len.get s.pb.active ≠ 0)
    (hend : (s.pb.len.get s.pb.active).toNat ≤ s.pb.cursor.toNat + 1) :
    exec .pbTick s = .next { s with
      pb := { s.pb with cursor := 0, active := !s.pb.active, dacOut := memRead s (tickAddr s.pb) },
      trace := s.trace ++ [memRead s (tickAddr s.pb)], memAddr := some (tickAddr s.pb), dacStrobe := true,
      sysReads := s.sysReads + 1 } := by
  rw [exec_pbTick_drains s harmed ((pbEmpty_eq_false s.pb).mpr hhot)]
  rcases advanceCursor_cases { s.pb with dacOut := memRead s (tickAddr s.pb) } with ⟨_, heq⟩ | ⟨hin, _⟩
  · exact congrArg (fun p => Host.Outcome.next { drainSample s with pb := p }) heq
  · exact absurd hend (Nat.not_le.mpr hin)

/-- Settles O16: a dropped, an idle and a draining tick, the last inside the buffer or at its end. -/
theorem pbTickEmitsOneSample : Obligations.PbTickEmitsOneSample := by
  refine fun s => ⟨exec_pbTick_disarmed s, fun _ hempty => exec_pbTick_idle s ((pbEmpty_iff s.pb).mpr hempty),
    fun harmed hhot => ⟨fun hin => ⟨_, exec_pbTick_inside s harmed hin⟩,
      fun hend => ⟨_, exec_pbTick_last s harmed hhot hend⟩⟩⟩

/-! ## While `pb_full` (R80, R84, R86) -/

/-- While `pb_full` only `PB_BEGIN` writes a descriptor or `pb_seen`: every submit is refused or waits. -/
theorem exec_descriptors_of_full (i : Instr) (s t : State) (h : exec i s = .next t) (hfull : pbFull s.pb = true)
    (hbegin : ∀ pin rate clk, i ≠ .pbBegin pin rate clk) :
    t.pb.ptr = s.pb.ptr ∧ t.pb.len = s.pb.len ∧ t.pb.seen = s.pb.seen := by
  rcases exec_pb_cases i s t h with
    hpb | ⟨pin, rate, clk, rfl, _⟩ | ⟨_, hpb⟩ | ⟨_, _, _, _, hfree, _⟩ | ⟨_, _, _, rfl⟩
  · rw [hpb]; exact ⟨rfl, rfl, rfl⟩
  · exact absurd rfl (hbegin pin rate clk)
  · rw [hpb]; exact ⟨rfl, rfl, rfl⟩
  · exact absurd hfull (Bool.eq_false_iff.mp hfree)
  · exact ⟨by simp, by simp, by simp⟩

/-- `pb_full` lasts as long as the selector keeps its value. -/
theorem exec_keeps_full (i : Instr) (s t : State) (h : exec i s = .next t) (hfull : pbFull s.pb = true)
    (hactive : t.pb.active = s.pb.active) (hbegin : ∀ pin rate clk, i ≠ .pbBegin pin rate clk) :
    pbFull t.pb = true := by
  obtain ⟨_, hlen, hseen⟩ := exec_descriptors_of_full i s t h hfull hbegin
  rwa [pbFull_iff, hlen, hseen, hactive, ← pbFull_iff]

theorem exec_pbSubmit_waits_of_full (ptr : Addr) (len : Len) (s : State) (hlen : len ≠ 0) (heven : ptr.getLsbD 0 = false)
    (hfull : pbFull s.pb = true) : exec (.pbSubmit ptr len) s = .next s :=
  exec_pbSubmit_waits ptr len s ((submitRefused_eq_false ptr len).mpr ⟨hlen, heven⟩) hfull

/-- Settles O27: an accepted handoff into the cold slot sets `pb_seen` to the selector. -/
theorem acceptedHandoffBlocksUntilAFlip : Obligations.AcceptedHandoffBlocksUntilAFlip := by
  refine ⟨fun ptr len s t h hlen heven hfree hhot => ?_, exec_keeps_full, exec_pbSubmit_waits_of_full⟩
  have hok := (submitRefused_eq_false ptr len).mpr ⟨hlen, heven⟩
  have hseen : s.pb.seen ≠ s.pb.active := fun hs => Bool.eq_false_iff.mp hfree ((pbFull_iff s.pb).mpr ⟨hs, hhot⟩)
  rw [exec_pbSubmit_hands_off ptr len s hok hseen hhot] at h
  cases h
  rw [pbFull_iff]
  exact ⟨rfl, by simpa using hhot⟩

/-- The playback unit directly after `PB_BEGIN` and the submit of a first buffer, which primes slot 1 (R72, R78). -/
def primedUnit (p : PbUnit) (pin : Pin) (rate : Rate) (clk : Option Freq) (ptr : Addr) (len : Len) : PbUnit :=
  { p with
    pin := pin, rate := rate, clk := clkLatched clk, active := true, cursor := 0, ptr := ⟨p.ptr.slot0, ptr⟩,
    len := ⟨0, len⟩, seen := false, armed := true }

theorem execAll_begin_submit (pin : Pin) (rate : Rate) (clk : Option Freq) (ptr : Addr) (len : Len) (s : State)
    (hrate : rate ≠ 0) (hok : submitRefused ptr len = false) :
    execAll [.pbBegin pin rate clk, .pbSubmit ptr len] s =
      .next (respond { s with pb := primedUnit s.pb pin rate clk ptr len } .ok 0) := by
  rw [execAll_cons, exec_pbBegin_accepted pin rate clk s (by rwa [← Bool.not_eq_true, rateRefused_iff]), andThen_next,
    execAll_cons, exec_pbSubmit_primes ptr len _ hok rfl]
  rfl

/-- Settles O28: the frame while `pb_full`, the waiting submit, and the three submits after `PB_BEGIN`. -/
theorem backToBackSubmitsKeepThePendingBuffer : Obligations.BackToBackSubmitsKeepThePendingBuffer := by
  refine ⟨fun i s t h hfull hbegin => ?_, exec_pbSubmit_waits_of_full,
    fun s pin rate clk p₁ p₂ p₃ l₁ l₂ l₃ hrate he₁ he₂ he₃ hl₁ hl₂ hl₃ => ?_⟩
  · obtain ⟨hptr, hlen, _⟩ := exec_descriptors_of_full i s t h hfull hbegin
    exact ⟨hptr, hlen, fun hactive => exec_keeps_full i s t h hfull hactive hbegin⟩
  · have hok₁ := (submitRefused_eq_false p₁ l₁).mpr ⟨hl₁, he₁⟩
    have hok₂ := (submitRefused_eq_false p₂ l₂).mpr ⟨hl₂, he₂⟩
    have hrun := execAll_append _ [.pbSubmit p₂ l₂] s _ (execAll_begin_submit pin rate clk p₁ l₁ s hrate hok₁)
    have hsecond := exec_pbSubmit_hands_off p₂ l₂ (respond { s with pb := primedUnit s.pb pin rate clk p₁ l₁ } .ok 0) hok₂
      Bool.false_ne_true hl₁
    rw [execAll_cons, hsecond, andThen_next, execAll_nil] at hrun
    refine ⟨_, hrun, rfl, rfl, ?_, exec_pbSubmit_waits_of_full p₃ l₃ _ hl₃ he₃ ?_⟩
    all_goals exact (pbFull_iff _).mpr ⟨rfl, hl₁⟩

/-- A flip of the selector is the tick of a last Sample: the whole unit after it. -/
theorem exec_pbTick_flip (s t : State) (h : exec .pbTick s = .next t) (hflip : t.pb.active ≠ s.pb.active) :
    s.pb.len.get s.pb.active ≠ 0 ∧
      t.pb = { s.pb with cursor := 0, active := !s.pb.active, dacOut := memRead s (tickAddr s.pb) } := by
  rcases exec_pbActive_cases .pbTick s t h hflip with ⟨_, harmed, hhot, hend, _⟩ | ⟨_, _, _, hi, _⟩
  · rw [exec_pbTick_last s harmed hhot hend] at h
    cases h
    exact ⟨hhot, rfl⟩
  · cases hi

/-- Settles O31: the flip changes the selector and the cursor alone, so `pb_full` follows from what the other slot
already held. -/
theorem underrunFlipTogglesFull : Obligations.UnderrunFlipTogglesFull := by
  intro s t h hflip
  obtain ⟨hhot, hpb⟩ := exec_pbTick_flip s t h hflip
  refine ⟨by rw [hpb], by rw [hpb], by rw [hpb], by rw [hpb], fun hstale => ?_, fun hcold => ?_⟩
  · have hfull : pbFull s.pb = (s.pb.seen == s.pb.active) := by simp [pbFull, (pbEmpty_eq_false s.pb).mpr hhot]
    have hfull' : pbFull t.pb = (s.pb.seen == !s.pb.active) := by
      have hhot' : pbEmpty t.pb = false := by rw [pbEmpty_eq_false, hpb]; exact hstale
      rw [pbFull, hhot', hpb]
      simp
    rw [hfull, hfull']
    cases s.pb.seen <;> cases s.pb.active <;> rfl
  · have hempty : pbEmpty t.pb = true := by rw [pbEmpty_iff, hpb]; exact hcold
    exact ⟨by simp [pbFull, hempty], exec_pbTick_idle t hempty⟩

/-! ## A run of ticks (R83) -/

/-- Where the Sample `j` places beyond the cursor lies. -/
def addrAhead (s : State) (j : Nat) : Addr :=
  sampleAddr (s.pb.ptr.get s.pb.active) (s.pb.cursor + BitVec.ofNat 32 j)

/-- What the tick number `j` from now reads: the Sample `j` places beyond the cursor, by the read number `j` from now. -/
def sampleAhead (s : State) (j : Nat) : Sample :=
  memRead { s with sysReads := s.sysReads + j } (addrAhead s j)

/-- `s` after `k` draining ticks through its hot buffer, the cursor and the selector as given; `out`, `addr` and
`strobe` are the outputs of the last of them. -/
def afterTicks (s : State) (k : Nat) (cursor : Len) (active : Slot) (out : Sample) (addr : Option Addr) (strobe : Bool) :
    State :=
  { s with
    pb := { s.pb with cursor := cursor, active := active, dacOut := out },
    trace := s.trace ++ (List.range k).map (sampleAhead s), memAddr := addr, dacStrobe := strobe,
    sysReads := s.sysReads + k }

/-- The trace and the count of reads after one more tick. -/
theorem afterTicks_succ (s : State) (k : Nat) (cursor : Len) (active : Slot) (out : Sample) (addr : Option Addr)
    (strobe : Bool) :
    afterTicks s (k + 1) cursor active out addr strobe =
      { s with
        pb := { s.pb with cursor := cursor, active := active, dacOut := out },
        trace := (s.trace ++ (List.range k).map (sampleAhead s)) ++ [sampleAhead s k], memAddr := addr,
        dacStrobe := strobe, sysReads := s.sysReads + k + 1 } := by
  rw [afterTicks, List.range_succ, List.map_append, List.append_assoc, Nat.add_assoc]
  rfl

/-- With the cursor `k` places on, the next tick reads the Sample `k` places ahead of where `s` stands. -/
theorem memRead_afterTicks (s : State) (k : Nat) (out : Sample) (addr : Option Addr) (strobe : Bool) :
    let t := afterTicks s k (s.pb.cursor + BitVec.ofNat 32 k) s.pb.active out addr strobe
    memRead t (tickAddr t.pb) = sampleAhead s k :=
  memRead_congr _ _ _ rfl rfl

theorem exec_pbTick_afterTicks_inside (s : State) (harmed : s.pb.armed = true) (k : Nat) (out : Sample)
    (addr : Option Addr) (strobe : Bool) (hk : s.pb.cursor.toNat + k + 1 < (s.pb.len.get s.pb.active).toNat) :
    exec .pbTick (afterTicks s k (s.pb.cursor + BitVec.ofNat 32 k) s.pb.active out addr strobe) =
      .next (afterTicks s (k + 1) (s.pb.cursor + BitVec.ofNat 32 (k + 1)) s.pb.active (sampleAhead s k)
        (some (addrAhead s k)) true) := by
  have hin : (s.pb.cursor + BitVec.ofNat 32 k).toNat + 1 < (s.pb.len.get s.pb.active).toNat := by bv_omega
  have hcursor : s.pb.cursor + BitVec.ofNat 32 (k + 1) = s.pb.cursor + BitVec.ofNat 32 k + 1 := by bv_omega
  rw [exec_pbTick_inside (afterTicks s k (s.pb.cursor + BitVec.ofNat 32 k) s.pb.active out addr strobe) harmed hin,
    memRead_afterTicks, hcursor, afterTicks_succ]
  rfl

theorem exec_pbTick_afterTicks_last (s : State) (harmed : s.pb.armed = true) (k : Nat) (out : Sample)
    (addr : Option Addr) (strobe : Bool) (hk : s.pb.cursor.toNat + k + 1 = (s.pb.len.get s.pb.active).toNat) :
    exec .pbTick (afterTicks s k (s.pb.cursor + BitVec.ofNat 32 k) s.pb.active out addr strobe) =
      .next (afterTicks s (k + 1) 0 (!s.pb.active) (sampleAhead s k) (some (addrAhead s k)) true) := by
  have hhot : s.pb.len.get s.pb.active ≠ 0 := by bv_omega
  have hend : (s.pb.len.get s.pb.active).toNat ≤ (s.pb.cursor + BitVec.ofNat 32 k).toNat + 1 := by bv_omega
  rw [exec_pbTick_last (afterTicks s k (s.pb.cursor + BitVec.ofNat 32 k) s.pb.active out addr strobe) harmed hhot hend,
    memRead_afterTicks, afterTicks_succ]
  rfl

/-- One more tick after a run of ticks. -/
theorem execAll_ticks_succ (k : Nat) (s t u : State) (hrun : execAll (ticks k) s = .next t)
    (htick : exec .pbTick t = .next u) : execAll (ticks (k + 1)) s = .next u := by
  rw [ticks, List.replicate_succ', ← ticks, execAll_append _ _ s t hrun, execAll_cons, htick, andThen_next, execAll_nil]

/-- Ticks that stop before the end of the hot buffer: no flip, and one Sample each. -/
theorem execAll_ticks_inside (s : State) (harmed : s.pb.armed = true) (k : Nat)
    (hk : s.pb.cursor.toNat + k < (s.pb.len.get s.pb.active).toNat) :
    ∃ out addr strobe, execAll (ticks k) s =
      .next (afterTicks s k (s.pb.cursor + BitVec.ofNat 32 k) s.pb.active out addr strobe) := by
  induction k with
  | zero => exact ⟨s.pb.dacOut, s.memAddr, s.dacStrobe, by simp [ticks, afterTicks]⟩
  | succ k ih =>
    obtain ⟨out, addr, strobe, hrun⟩ := ih (by omega)
    exact ⟨_, _, _, execAll_ticks_succ k _ _ _ hrun (exec_pbTick_afterTicks_inside s harmed k out addr strobe hk)⟩

/-- Ticks up to the end of the hot buffer: the last of them flips the selector. -/
theorem execAll_ticks_to_end (s : State) (harmed : s.pb.armed = true) (n : Nat) (hn : n ≠ 0)
    (hend : s.pb.cursor.toNat + n = (s.pb.len.get s.pb.active).toNat) :
    ∃ out addr strobe, execAll (ticks n) s = .next (afterTicks s n 0 (!s.pb.active) out addr strobe) := by
  cases n with
  | zero => exact absurd rfl hn
  | succ k =>
    obtain ⟨out, addr, strobe, hrun⟩ := execAll_ticks_inside s harmed k (by omega)
    exact ⟨_, _, _, execAll_ticks_succ k _ _ _ hrun (exec_pbTick_afterTicks_last s harmed k out addr strobe hend)⟩

/-- Settles O24: the ticks stop inside the hot buffer or at its end. -/
theorem traversalEmitsTheHotBufferInOrder : Obligations.TraversalEmitsTheHotBufferInOrder := by
  intro s harmed hcursor n k hk
  rw [BitVec.lt_def] at hcursor
  rcases Nat.lt_or_eq_of_le hk with hin | rfl
  · obtain ⟨out, addr, strobe, hrun⟩ := execAll_ticks_inside s harmed k (by omega)
    refine ⟨_, hrun, rfl, ?_⟩
    rw [if_neg hin.ne, if_neg hin.ne]
    rfl
  · obtain ⟨out, addr, strobe, hrun⟩ := execAll_ticks_to_end s harmed n (by omega) (by omega)
    refine ⟨_, hrun, rfl, ?_⟩
    rw [if_pos rfl, if_pos rfl]
    rfl

/-! ## A buffer plays whole (R82, R85) -/

theorem holdsBuffer.length_toNat {m : Memory} {ptr : Addr} {xs : List Sample} (h : holdsBuffer m ptr xs) :
    (BitVec.ofNat 32 xs.length).toNat = xs.length := by
  obtain ⟨_, _, hlt, _⟩ := h
  rw [BitVec.toNat_ofNat, Nat.mod_eq_of_lt hlt]

theorem holdsBuffer.submit_ok {m : Memory} {ptr : Addr} {xs : List Sample} (h : holdsBuffer m ptr xs) :
    submitRefused ptr (BitVec.ofNat 32 xs.length) = false := by
  have hlen := h.length_toNat
  obtain ⟨heven, hpos, _, _⟩ := h
  refine (submitRefused_eq_false _ _).mpr ⟨fun h₀ => ?_, heven⟩
  exact hpos.ne (by rw [← hlen, h₀]; rfl)

theorem append_bytes (x : Sample) : x.extractLsb' 8 8 ++ x.extractLsb' 0 8 = x := by
  apply BitVec.eq_of_toNat_eq
  rw [toNat_append_byte, BitVec.extractLsb'_toNat, BitVec.extractLsb'_toNat]
  omega

/-- A read of Sample `i` of a buffer in SYS finds it. -/
theorem holdsBuffer.memRead {s : State} {ptr : Addr} {xs : List Sample} (h : holdsBuffer s.sys ptr xs) (i : Nat)
    (x : Sample) (hx : xs[i]? = some x) : memRead s (sampleAddr ptr (BitVec.ofNat 32 i)) = x := by
  obtain ⟨_, _, _, hbytes⟩ := h
  obtain ⟨hlo, hhi⟩ := hbytes i x hx
  rw [memRead_of_known s _ _ _ hlo hhi, append_bytes]

/-- The unit stands at index 0 of the buffer `b`, which is hot and lies in SYS. -/
structure HotAtStart (s : State) (b : Addr × List Sample) : Prop where
  armed : s.pb.armed = true
  cursor : s.pb.cursor = 0
  ptr : s.pb.ptr.get s.pb.active = b.1
  len : s.pb.len.get s.pb.active = BitVec.ofNat 32 b.2.length
  held : holdsBuffer s.sys b.1 b.2

theorem HotAtStart.len_toNat {s : State} {b : Addr × List Sample} (h : HotAtStart s b) :
    (s.pb.len.get s.pb.active).toNat = b.2.length := by rw [h.len, h.held.length_toNat]

/-- What the ticks of a whole buffer read, in order. -/
theorem HotAtStart.samples {s : State} {b : Addr × List Sample} (h : HotAtStart s b) :
    (List.range b.2.length).map (sampleAhead s) = b.2 := by
  refine List.ext_getElem (by simp) fun i _ hi => ?_
  have hheld : holdsBuffer { s with sysReads := s.sysReads + i }.sys b.1 b.2 := h.held
  rw [List.getElem_map, List.getElem_range, sampleAhead, addrAhead, h.ptr, h.cursor,
    show (0 : Len) + BitVec.ofNat 32 i = BitVec.ofNat 32 i from BitVec.zero_add _]
  exact hheld.memRead i _ (List.getElem?_eq_getElem hi)

/-- As many ticks as the hot buffer has Samples emit it whole. -/
theorem HotAtStart.drain {s : State} {b : Addr × List Sample} (h : HotAtStart s b) :
    ∃ t, execAll (ticks b.2.length) s = .next t ∧ t.trace = s.trace ++ b.2 ∧ t.sys = s.sys ∧
      t.pb = { s.pb with cursor := 0, active := !s.pb.active, dacOut := t.pb.dacOut } := by
  obtain ⟨_, hpos, _, _⟩ := h.held
  obtain ⟨out, addr, strobe, hrun⟩ := execAll_ticks_to_end s h.armed b.2.length hpos.ne'
    (by simp [h.cursor, h.len_toNat])
  exact ⟨_, hrun, congrArg (s.trace ++ ·) h.samples, rfl, rfl⟩

/-- One round of the schedule of R82: the next buffer is handed to the cold slot, the hot one drains, and the next one
is then at its start. -/
theorem HotAtStart.submit_drain {s : State} {b : Addr × List Sample} (h : HotAtStart s b)
    (hfree : s.pb.seen ≠ s.pb.active) (c : Addr × List Sample) (hc : holdsBuffer s.sys c.1 c.2) :
    ∃ t, execAll (submitOf c :: ticks b.2.length) s = .next t ∧ HotAtStart t c ∧ t.pb.seen ≠ t.pb.active ∧
      t.trace = s.trace ++ b.2 ∧ t.sys = s.sys := by
  have hhot : s.pb.len.get s.pb.active ≠ 0 := by
    obtain ⟨hlen, _⟩ := (submitRefused_eq_false _ _).mp h.held.submit_ok
    rwa [h.len]
  have hsubmit := exec_pbSubmit_hands_off c.1 _ s hc.submit_ok hfree hhot
  have hstart : HotAtStart (respond { s with pb := { s.pb with
      ptr := s.pb.ptr.set (!s.pb.active) c.1, len := s.pb.len.set (!s.pb.active) (BitVec.ofNat 32 c.2.length),
      seen := s.pb.active } } .ok 0) b :=
    ⟨h.armed, h.cursor, by simpa using h.ptr, by simpa using h.len, h.held⟩
  obtain ⟨t, hrun, htrace, hsys, hpb⟩ := hstart.drain
  refine ⟨t, ?_, ⟨?_, ?_, ?_, ?_, ?_⟩, ?_, htrace, hsys⟩
  · rw [execAll_cons, submitOf, hsubmit, andThen_next, hrun]
  · rw [hpb]; exact h.armed
  · rw [hpb]
  · rw [hpb]; simp
  · rw [hpb]; simp
  · rw [hsys]; exact hc
  · rw [hpb]; simp

/-- The rest of the schedule plays the hot buffer and then the others. -/
theorem execAll_playRest (bs : List (Addr × List Sample)) (s : State) (b : Addr × List Sample) (h : HotAtStart s b)
    (hfree : s.pb.seen ≠ s.pb.active) (hbs : ∀ c ∈ bs, holdsBuffer s.sys c.1 c.2) :
    ∃ t, execAll (playRest b bs) s = .next t ∧ t.trace = s.trace ++ ((b :: bs).map Prod.snd).flatten ∧
      t.pb.cursor = 0 := by
  induction bs generalizing s b with
  | nil =>
    obtain ⟨t, hrun, htrace, _, hpb⟩ := h.drain
    exact ⟨t, hrun, by simpa using htrace, by rw [hpb]⟩
  | cons c cs ih =>
    obtain ⟨u, hround, hstart, hfree', htrace, hsys⟩ := h.submit_drain hfree c (hbs c List.mem_cons_self)
    obtain ⟨t, hrest, htrace', hcursor⟩ :=
      ih u c hstart hfree' fun d hd => by rw [hsys]; exact hbs d (List.mem_cons_of_mem _ hd)
    refine ⟨t, ?_, by rw [htrace', htrace]; simp, hcursor⟩
    rw [playRest, ← List.cons_append, execAll_append _ _ s u hround, hrest]

theorem hotAtStart_primedUnit (s : State) (pin : Pin) (rate : Rate) (clk : Option Freq) (b : Addr × List Sample)
    (hb : holdsBuffer s.sys b.1 b.2) :
    HotAtStart (respond { s with pb := primedUnit s.pb pin rate clk b.1 (BitVec.ofNat 32 b.2.length) } .ok 0) b :=
  ⟨rfl, rfl, rfl, rfl, hb⟩

/-- Settles O26: `PB_BEGIN` and the first submit put the first buffer at its start, and the rest is by induction over the
buffers. -/
theorem queuedBuffersPlayInOrder : Obligations.QueuedBuffersPlayInOrder := by
  intro s pin rate clk b bs hrate hheld
  have hb := hheld b List.mem_cons_self
  have hbegin := execAll_begin_submit pin rate clk b.1 _ s hrate hb.submit_ok
  obtain ⟨t, hrun, htrace, hcursor⟩ := execAll_playRest bs _ b (hotAtStart_primedUnit s pin rate clk b hb)
    Bool.false_ne_true fun c hc => hheld c (List.mem_cons_of_mem _ hc)
  exact ⟨t, (execAll_append _ (playRest b bs) s _ hbegin).trans hrun, htrace, hcursor⟩

theorem afterTicks_zero (s : State) :
    afterTicks s 0 (s.pb.cursor + BitVec.ofNat 32 0) s.pb.active s.pb.dacOut s.memAddr s.dacStrobe = s := by
  simp [afterTicks]

/-- The first ticks of a buffer emit its first Samples. -/
theorem HotAtStart.trace_afterTicks {s : State} {b : Addr × List Sample} (h : HotAtStart s b) (k : Nat)
    (hk : k ≤ b.2.length) (cursor : Len) (active : Slot) (out : Sample) (addr : Option Addr) (strobe : Bool) :
    (afterTicks s k cursor active out addr strobe).trace = s.trace ++ b.2.take k := by
  have hfirst : (List.range k).map (sampleAhead s) = b.2.take k := by
    conv_rhs => rw [← h.samples, ← List.map_take, List.take_range, Nat.min_eq_left hk]
  exact congrArg (s.trace ++ ·) hfirst

/-- The ticks of a buffer of three Samples, one at a time. -/
theorem HotAtStart.three_ticks {s : State} {ptr : Addr} {x y z : Sample} (h : HotAtStart s (ptr, [x, y, z])) :
    ∃ t₁ t₂ t₃, exec .pbTick s = .next t₁ ∧ t₁.pb.active = s.pb.active ∧ t₁.trace = s.trace ++ [x] ∧
      exec .pbTick t₁ = .next t₂ ∧ t₂.pb.active = s.pb.active ∧ t₂.trace = s.trace ++ [x, y] ∧
      exec .pbTick t₂ = .next t₃ ∧ t₃.trace = s.trace ++ [x, y, z] ∧
      t₃.pb = { s.pb with cursor := 0, active := !s.pb.active, dacOut := t₃.pb.dacOut } := by
  have hlen : (s.pb.len.get s.pb.active).toNat = 3 := h.len_toNat
  have hcursor : s.pb.cursor.toNat = 0 := congrArg BitVec.toNat h.cursor
  have htick₁ := exec_pbTick_afterTicks_inside s h.armed 0 s.pb.dacOut s.memAddr s.dacStrobe (by omega)
  rw [afterTicks_zero] at htick₁
  have htick₂ := exec_pbTick_afterTicks_inside s h.armed 1 (sampleAhead s 0) (some (addrAhead s 0)) true (by omega)
  have htick₃ := exec_pbTick_afterTicks_last s h.armed 2 (sampleAhead s 1) (some (addrAhead s 1)) true (by omega)
  exact ⟨_, _, _, htick₁, rfl, h.trace_afterTicks 1 (by simp) .., htick₂, rfl, h.trace_afterTicks 2 (by simp) ..,
    htick₃, h.trace_afterTicks 3 le_rfl .., rfl⟩

/-- The status word of an armed unit with an empty slot 0 hot and nothing handed over (R22). -/
theorem pbStatWord_of_empty (p : PbUnit) (harmed : p.armed = true) (hactive : p.active = false) (hseen : p.seen = false)
    (hempty : p.len.slot0 = 0) : pbStatWord p = 0x00000011 := by
  have hhot : pbEmpty p = true := by rw [pbEmpty_iff, hactive]; exact hempty
  rw [pbStatWord, pbFull, hhot, hseen, hactive, harmed]
  rfl

/-- Settles O25: the three ticks from the start of the buffer, and the unit after the flip onto the empty slot 0. -/
theorem roundTripOfThreeSamples : Obligations.RoundTripOfThreeSamples := by
  intro s pin rate clk ptr hrate hheld
  have hbegin := execAll_begin_submit pin rate clk ptr 3 s hrate hheld.submit_ok
  obtain ⟨t₁, t₂, t₃, htick₁, hactive₁, htrace₁, htick₂, hactive₂, htrace₂, htick₃, htrace₃, hpb⟩ :=
    (hotAtStart_primedUnit s pin rate clk (ptr, [100, 200, 300]) hheld).three_ticks
  refine ⟨_, t₁, t₂, t₃, hbegin, rfl, htick₁, hactive₁, htrace₁, htick₂, hactive₂, htrace₂, htick₃, by rw [hpb]; rfl,
    htrace₃, by rw [hpb], ?_⟩
  apply pbStatWord_of_empty <;> rw [hpb] <;> rfl

/-! ## A waiting `PB_SUBMIT` (R79) -/

/-- The DMA port's turn goes on and is not seen by the playback unit nor by the command port. -/
theorem runDma_goes_on (d : DmaWord) (s : State) :
    ∃ t, runDma d s = .next t ∧ t.pb = s.pb ∧ t.cmdPort = s.cmdPort ∧ t.hw = s.hw := by
  rw [runDma_eq]
  split_ifs
  · obtain ⟨t, ht⟩ := exec_goes_on (.capDmaWr (d.extractLsb' 0 16)) s
    obtain ⟨hport, _⟩ := exec_event_port _ s t (.inr ⟨_, rfl⟩) ht
    obtain ⟨_, _, hhw, _⟩ := exec_env _ s t ht
    exact ⟨t, ht, exec_capture_pb _ s t rfl ht, hport, hhw⟩
  · exact ⟨s, rfl, rfl, rfl, rfl⟩

/-- A step that drains a Sample comes to the command's turn with the cursor advanced and the waiting command still on the
port. -/
theorem step_of_draining_tick (s : State) (w : CmdWord) (hrst : (currentMove s).rst = false)
    (htick : (currentMove s).tick = 1) (harmed : s.pb.armed = true) (hhot : s.pb.len.get s.pb.active ≠ 0)
    (hport : s.cmdPort = some w) :
    ∃ u, step s = runCommand u ∧ u.cmdPort = some w ∧ u.hw = s.hw.tail ∧
      u.pb = advanceCursor { s.pb with dacOut := u.pb.dacOut } := by
  have hstart : (stepStart s).pb = s.pb := stepStart_pb s
  have hdrain : runTick (currentMove s).tick (stepStart s) = .next (drainSample (stepStart s)) := by
    rw [runTick_eq, if_pos htick]
    exact exec_pbTick_drains _ (by rwa [hstart]) (by rwa [hstart, pbEmpty_eq_false])
  obtain ⟨u, hdma, hpb, hport', hhw⟩ := runDma_goes_on (currentMove s).dma (drainSample (stepStart s))
  refine ⟨u, ?_, ?_, ?_, ?_⟩
  · rw [step_of_not_rst s hrst, runPorts, hdrain, andThen_next, hdma, andThen_next]
  · obtain ⟨hwaits, _⟩ := stepStart_cmdPort_of_some s w hport
    rw [hport', drainSample_cmdPort, hwaits]
  · rw [hhw, drainSample_hw, stepStart_hw]
  · rw [hpb, drainSample_pb, advanceCursor_dacOut, hstart]

/-- The command `w` waits on the port, and the tick number `n` from now drains the last Sample of the hot buffer. The
other slot holds the pending buffer. -/
structure WaitsForTicks (s : State) (w : CmdWord) (n : Nat) : Prop where
  armed : s.pb.armed = true
  full : pbFull s.pb = true
  pending : s.pb.len.get (!s.pb.active) ≠ 0
  port : s.cmdPort = some w
  left : s.pb.cursor.toNat + n = (s.pb.len.get s.pb.active).toNat

section
variable {s : State} {w : CmdWord} {ptr : Addr} {len : Len}

/-- While more than one Sample is left, a step with a tick leaves the command waiting. -/
theorem WaitsForTicks.step_inside {n : Nat} (h : WaitsForTicks s w (n + 2)) (hdec : decodeCmd w = .ok (.pbSubmit ptr len))
    (hok : submitRefused ptr len = false) (hrst : (currentMove s).rst = false) (htick : (currentMove s).tick = 1) :
    ∃ t, step s = .next t ∧ WaitsForTicks t w (n + 1) ∧ t.hw = s.hw.tail ∧ t.pb.active = s.pb.active := by
  obtain ⟨hseen, hhot⟩ := (pbFull_iff s.pb).mp h.full
  obtain ⟨u, hstep, hport, hhw, hpb⟩ := step_of_draining_tick s w hrst htick h.armed hhot h.port
  have hleft := h.left
  rcases advanceCursor_cases { s.pb with dacOut := u.pb.dacOut } with ⟨hend, _⟩ | ⟨hin, heq⟩
  · simp only at hend
    omega
  · rw [heq] at hpb
    have hfull : pbFull u.pb = true := by rw [pbFull_iff, hpb]; exact ⟨hseen, hhot⟩
    refine ⟨u, ?_, ⟨by rw [hpb]; exact h.armed, hfull, by rw [hpb]; exact h.pending, hport, ?_⟩, hhw, by rw [hpb]⟩
    · rw [hstep, runCommand_of_ok u w _ hport hdec, exec_pbSubmit_waits ptr len u hok hfull]
    · rw [hpb]
      have hlt := (s.pb.len.get s.pb.active).isLt
      simp only at hin ⊢
      bv_omega

/-- The submit of `(ptr, len)` has been accepted with `OK`, and its buffer is in `slot`. -/
def SubmitAccepted (t : State) (slot : Slot) (ptr : Addr) (len : Len) : Prop :=
  t.cmdPort = none ∧ t.rsp = some ⟨.ok, 0⟩ ∧ t.pb.ptr.get slot = ptr ∧ t.pb.len.get slot = len

/-- The step whose tick drains the last Sample flips the selector and accepts the command into the slot just drained. -/
theorem WaitsForTicks.step_last (h : WaitsForTicks s w 1) (hdec : decodeCmd w = .ok (.pbSubmit ptr len))
    (hok : submitRefused ptr len = false) (hrst : (currentMove s).rst = false) (htick : (currentMove s).tick = 1) :
    ∃ t, step s = .next t ∧ SubmitAccepted t s.pb.active ptr len := by
  obtain ⟨hseen, hhot⟩ := (pbFull_iff s.pb).mp h.full
  obtain ⟨u, hstep, hport, _, hpb⟩ := step_of_draining_tick s w hrst htick h.armed hhot h.port
  have hleft := h.left
  rcases advanceCursor_cases { s.pb with dacOut := u.pb.dacOut } with ⟨_, heq⟩ | ⟨hin, _⟩
  · rw [heq] at hpb
    have hcold : (!u.pb.active) = s.pb.active := by rw [hpb, Bool.not_not]
    have hfree : u.pb.seen ≠ u.pb.active := by rw [hpb]; simp [hseen]
    have hhot' : u.pb.len.get u.pb.active ≠ 0 := by rw [hpb]; exact h.pending
    rw [hstep, runCommand_of_ok u w _ hport hdec, exec_pbSubmit_hands_off ptr len u hok hfree hhot', hcold]
    exact ⟨_, rfl, rfl, rfl, Pair.get_set_same .., Pair.get_set_same ..⟩
  · simp only at hin
    omega

/-- Each of the next `n` steps brings a tick and no reset. -/
def TicksEveryStep (s : State) (n : Nat) : Prop :=
  ∀ k < n, ∃ m, s.hw[k]? = some m ∧ m.rst = false ∧ m.tick = 1

theorem TicksEveryStep.now {n : Nat} (h : TicksEveryStep s (n + 1)) :
    (currentMove s).rst = false ∧ (currentMove s).tick = 1 := by
  obtain ⟨m, hm, hmove⟩ := h 0 (Nat.succ_pos n)
  have hcurrent : currentMove s = m := by
    rw [currentMove, List.headD_eq_head?_getD, List.head?_eq_getElem?, hm, Option.getD_some]
  rwa [hcurrent]

theorem TicksEveryStep.later {n : Nat} (h : TicksEveryStep s (n + 1)) {t : State} (hhw : t.hw = s.hw.tail) :
    TicksEveryStep t n := by
  intro k hk
  rw [hhw, List.getElem?_tail]
  exact h (k + 1) (Nat.succ_lt_succ hk)

/-- After fewer ticks than Samples are left the command is still on the port. -/
theorem WaitsForTicks.run_inside (k n : Nat) (hk : k < n) (h : WaitsForTicks s w n)
    (hdec : decodeCmd w = .ok (.pbSubmit ptr len)) (hok : submitRefused ptr len = false) (hticks : TicksEveryStep s n) :
    ∃ t, runSteps k s = .next t ∧ t.cmdPort = some w := by
  induction k generalizing n s with
  | zero => exact ⟨s, rfl, h.port⟩
  | succ k ih =>
    obtain ⟨m, rfl⟩ : ∃ m, n = m + 2 := ⟨n - 2, by omega⟩
    obtain ⟨hrst, htick⟩ := hticks.now
    obtain ⟨u, hstep, hu, hhw, _⟩ := h.step_inside hdec hok hrst htick
    rw [runSteps_succ, hstep, andThen_next]
    exact ih (m + 1) (by omega) hu (hticks.later hhw)

/-- With the tick of the last Sample the command is accepted. -/
theorem WaitsForTicks.run_to_end (n : Nat) (h : WaitsForTicks s w (n + 1))
    (hdec : decodeCmd w = .ok (.pbSubmit ptr len)) (hok : submitRefused ptr len = false)
    (hticks : TicksEveryStep s (n + 1)) :
    ∃ t, runSteps (n + 1) s = .next t ∧ SubmitAccepted t s.pb.active ptr len := by
  induction n generalizing s with
  | zero =>
    obtain ⟨hrst, htick⟩ := hticks.now
    obtain ⟨t, hstep, hdone⟩ := h.step_last hdec hok hrst htick
    exact ⟨t, by rw [runSteps_succ, hstep, andThen_next]; rfl, hdone⟩
  | succ n ih =>
    obtain ⟨hrst, htick⟩ := hticks.now
    obtain ⟨u, hstep, hu, hhw, hactive⟩ := h.step_inside hdec hok hrst htick
    rw [runSteps_succ, hstep, andThen_next, ← hactive]
    exact ih hu (hticks.later hhw)

end

/-- Settles O29: by the invariant the cursor is inside the hot buffer and the other slot holds the pending one. -/
theorem waitEndsAfterTheRemainingTicks : Obligations.WaitEndsAfterTheRemainingTicks := by
  intro s w ptr len hinv harmed hfull hport hdec hlen heven n hticks
  obtain ⟨hseen, hhot⟩ := (pbFull_iff s.pb).mp hfull
  have hcursor := hinv.cursor_lt hhot
  obtain ⟨_, _, _, _, hpending⟩ := hinv
  have hok := (submitRefused_eq_false ptr len).mpr ⟨hlen, heven⟩
  obtain ⟨k, hn⟩ : ∃ k, n = k + 1 := ⟨n - 1, by omega⟩
  have hwaits : WaitsForTicks s w n := ⟨harmed, hfull, hpending hseen hhot, hport, by omega⟩
  refine ⟨fun k hk => hwaits.run_inside k n hk hdec hok hticks, ?_⟩
  rw [hn] at hwaits hticks ⊢
  exact hwaits.run_to_end k hdec hok hticks

end Sys2Proof.Machine

/-! The capture operations (41_capture_ops.md R89 to R99): each command and the beat as one next state, a slot filled by
beats, the correction of a take, and the DC filter on a constant input. -/

namespace Sys2Proof.Machine

/-! ## The commands without a correction (R89, R90, R93, R94) -/

/-- Settles O35, from the two branches of `CAP_BEGIN`. -/
theorem capBeginArmsCapture : Obligations.CapBeginArmsCapture := by
  refine fun pin rate s => ⟨fun h => ?_, fun h => ?_⟩
  · rw [exec_capBegin_refused pin rate s ((rateRefused_iff rate).mpr h)]
    rfl
  · rw [exec_capBegin_accepted pin rate s (by rwa [← Bool.not_eq_true, rateRefused_iff])]
    rfl

/-- Settles O36. -/
theorem capEndDisarmsCapture : Obligations.CapEndDisarmsCapture := fun _ => rfl

/-- Settles O39: widening a container to the response data keeps its unsigned value. -/
theorem capRdReadsOneContainer : Obligations.CapRdReadsOneContainer := by
  intro slot index s
  exact ⟨(capSample s slot index.toNat).setWidth 32, rfl, BitVec.toNat_setWidth_of_le (by decide)⟩

/-- The DC estimate as the bits of the accumulator (R25). -/
theorem dcEstimate_eq_extractLsb' (acc : DcAcc) : dcEstimate acc = (acc >>> 4).extractLsb' 0 16 :=
  BitVec.setWidth_eq_extractLsb' (by decide)

/-- The lower half of the status word: the two flags below 14 zeros (R23). -/
def capStatFlags (active armed : Bool) : BitVec 16 := 0#14 ++ BitVec.ofBool active ++ BitVec.ofBool armed

theorem capStatWord_eq_append (c : CapUnit) : capStatWord c = dcEstimate c.dcAcc ++ capStatFlags c.active c.armed := by
  refine (congrArg (· ++ BitVec.ofBool c.armed) (BitVec.append_assoc (x₁ := dcEstimate c.dcAcc) (x₂ := 0#14))).trans ?_
  exact BitVec.append_assoc (x₁ := dcEstimate c.dcAcc) (x₂ := 0#14 ++ BitVec.ofBool c.active)

theorem capStatFlags_bits (active armed : Bool) :
    (capStatFlags active armed).getLsbD 0 = armed ∧ (capStatFlags active armed).getLsbD 1 = active ∧
    (capStatFlags active armed).extractLsb' 2 14 = 0 := by
  revert active armed
  decide

/-- The status word, field by field (R23). -/
theorem capStatWord_fields (c : CapUnit) :
    (capStatWord c).getLsbD 0 = c.armed ∧ (capStatWord c).getLsbD 1 = c.active ∧
    (capStatWord c).extractLsb' 2 14 = 0 ∧ (capStatWord c).extractLsb' 16 16 = dcEstimate c.dcAcc := by
  rw [capStatWord_eq_append]
  obtain ⟨harmed, hactive, hzero⟩ := capStatFlags_bits c.active c.armed
  exact ⟨BitVec.getLsbD_append.trans harmed, BitVec.getLsbD_append.trans hactive,
    (BitVec.extractLsb'_append_eq_of_add_le (by decide)).trans hzero, BitVec.extractLsb'_append_eq_left⟩

/-- Settles O40, from the fields of the status word. -/
theorem capStatReportsTheEstimate : Obligations.CapStatReportsTheEstimate := by
  intro s
  obtain ⟨harmed, hactive, hzero, hdc⟩ := capStatWord_fields s.cap
  exact ⟨capStatWord s.cap, rfl, harmed, hactive, hzero, hdc.trans (dcEstimate_eq_extractLsb' _)⟩

/-! ## The beat (R91) -/

/-- A beat before the last index of the slot: the cursor goes on by one. -/
theorem fillSample_inside (s : State) (data : Sample) (hin : s.cap.cursor.toNat < 4095) :
    fillSample s data = { s with cap := { s.cap with
      mem := (fillSample s data).cap.mem, cursor := s.cap.cursor + 1 } } := by
  rcases advanceFill_cases (capWrite s (capHot s.cap) s.cap.cursor.toNat data).cap with ⟨hlast, _⟩ | ⟨_, heq⟩
  · exact absurd (congrArg BitVec.toNat hlast) hin.ne
  · simp only [fillSample, heq]
    rfl

/-- The beat at the last index: the cursor goes back to 0 and the selector flips. -/
theorem fillSample_last (s : State) (data : Sample) (hlast : s.cap.cursor = 4095) :
    fillSample s data = { s with cap := { s.cap with
      mem := (fillSample s data).cap.mem, cursor := 0, active := !s.cap.active } } := by
  rcases advanceFill_cases (capWrite s (capHot s.cap) s.cap.cursor.toNat data).cap with ⟨_, heq⟩ | ⟨hin, _⟩
  · simp only [fillSample, heq]
    rfl
  · exact absurd (congrArg BitVec.toNat hlast) (show s.cap.cursor.toNat < 4095 from hin).ne

theorem fillSample_inside_cursor (s : State) (data : Sample) (hin : s.cap.cursor.toNat < 4095) :
    (fillSample s data).cap.cursor.toNat = s.cap.cursor.toNat + 1 := by
  rw [fillSample_inside s data hin]
  simp only
  bv_omega

theorem cursor_lt_of_ne_last {c : CapIndex} (h : c ≠ 4095) : c.toNat < 4095 := by bv_omega

/-- Settles O37: the container from the write, the cursor and the selector from the two ways a beat can advance. -/
theorem capDmaWrFillsTheHotSlot : Obligations.CapDmaWrFillsTheHotSlot := by
  refine fun data s => ⟨exec_capDmaWr_disarmed data s, fun harmed =>
    ⟨_, exec_capDmaWr_armed data s harmed, capSample_fillSample s data, ?_⟩⟩
  by_cases hlast : s.cap.cursor = 4095
  · rw [if_pos hlast, if_pos hlast]
    exact fillSample_last s data hlast
  · rw [if_neg hlast, if_neg hlast]
    exact fillSample_inside s data (cursor_lt_of_ne_last hlast)

/-! ## A run of beats (R91, R99) -/

/-- Reading what one value and then a list leave from index `c` on is reading the longer list. -/
theorem ite_getD_cons (x : Sample) (xs : List Sample) (hot : Prop) [Decidable hot] (c i : Nat) (old : Sample) :
    (if hot ∧ c + 1 ≤ i ∧ i < c + 1 + xs.length then xs.getD (i - (c + 1)) 0 else if hot ∧ i = c then x else old) =
      if hot ∧ c ≤ i ∧ i < c + (x :: xs).length then (x :: xs).getD (i - c) 0 else old := by
  by_cases hhot : hot
  · simp only [hhot, true_and, List.length_cons]
    rcases Nat.lt_trichotomy i c with hlt | rfl | hgt
    · rw [if_neg (by omega), if_neg (by omega), if_neg (by omega)]
    · simp
    · obtain ⟨j, rfl⟩ := Nat.exists_eq_add_of_lt hgt
      rw [show c + j + 1 - c = j + 1 by omega, show c + j + 1 - (c + 1) = j by omega, List.getD_cons_succ,
        if_neg (show ¬ c + j + 1 = c by omega)]
      exact if_congr (by omega) rfl rfl
  · simp [hhot]

/-- What the beats of `xs` make of `s`, where they do not pass the end of the slot. -/
structure BeatsFill (s : State) (xs : List Sample) (t : State) : Prop where
  contents : ∀ slot i, capSample t slot i =
    if slot = s.cap.active ∧ s.cap.cursor.toNat ≤ i ∧ i < s.cap.cursor.toNat + xs.length
    then xs.getD (i - s.cap.cursor.toNat) 0 else capSample s slot i
  flip : t.cap.active ≠ s.cap.active ↔ s.cap.cursor.toNat + xs.length = 4096
  cursor : t.cap.cursor.toNat = (s.cap.cursor.toNat + xs.length) % 4096
  frame : t = { s with cap := { s.cap with mem := t.cap.mem, cursor := t.cap.cursor, active := t.cap.active } }

theorem BeatsFill.nil (s : State) : BeatsFill s [] s where
  contents slot i := by rw [if_neg (by rw [List.length_nil]; omega)]
  flip := iff_of_false (fun h => h rfl) s.cap.cursor.isLt.ne
  cursor := (Nat.mod_eq_of_lt s.cap.cursor.isLt).symm
  frame := rfl

/-- The beat at the last index has no other one after it. -/
theorem BeatsFill.last (s : State) (x : Sample) (hlast : s.cap.cursor = 4095) : BeatsFill s [x] (fillSample s x) where
  contents slot i := by
    rw [capSample_fillSample, ← ite_getD_cons]
    exact (if_neg (by rw [List.length_nil]; omega)).symm
  flip := by rw [fillSample_last s x hlast, hlast]; simp
  cursor := by rw [fillSample_last s x hlast, hlast]; simp
  frame := by rw [fillSample_last s x hlast]

/-- A beat before the last index, and then the others. -/
theorem BeatsFill.cons {s t : State} {x : Sample} {xs : List Sample} (hin : s.cap.cursor.toNat < 4095)
    (h : BeatsFill (fillSample s x) xs t) : BeatsFill s (x :: xs) t := by
  obtain ⟨hcontents, hflip, hcursor, hframe⟩ := h
  have hfill := fillSample_inside s x hin
  have hnext := fillSample_inside_cursor s x hin
  have hactive : (fillSample s x).cap.active = s.cap.active := by rw [hfill]
  have hlength : s.cap.cursor.toNat + 1 + xs.length = s.cap.cursor.toNat + (x :: xs).length := by
    rw [List.length_cons]; omega
  refine ⟨fun slot i => ?_, ?_, ?_, ?_⟩
  · rw [hcontents, hnext, hactive, capSample_fillSample, ite_getD_cons]
  · rw [← hactive, hflip, hnext, hlength]
  · rw [hcursor, hnext, hlength]
  · rw [hfill] at hframe
    exact hframe

/-- Beats that do not pass the end of the slot go on, by induction: one with another one after it is not the last. -/
theorem execAll_beats (xs : List Sample) (s : State) (harmed : s.cap.armed = true)
    (hfit : s.cap.cursor.toNat + xs.length ≤ 4096) : ∃ t, execAll (beats xs) s = .next t ∧ BeatsFill s xs t := by
  induction xs generalizing s with
  | nil => exact ⟨s, rfl, .nil s⟩
  | cons x xs ih =>
    rw [beats, List.map_cons, execAll_cons, exec_capDmaWr_armed x s harmed, andThen_next, ← beats]
    rw [List.length_cons] at hfit
    by_cases hlast : s.cap.cursor = 4095
    · have hnil : xs.length = 0 := by
        have : s.cap.cursor.toNat = 4095 := congrArg BitVec.toNat hlast
        omega
      obtain rfl := List.length_eq_zero_iff.mp hnil
      exact ⟨_, rfl, .last s x hlast⟩
    · have hin := cursor_lt_of_ne_last hlast
      have hnext := fillSample_inside_cursor s x hin
      obtain ⟨t, hrun, hfill⟩ := ih (fillSample s x) (by simpa using harmed) (by omega)
      exact ⟨t, hrun, hfill.cons hin⟩

/-- The cursor is inside the slot, so it takes a beat to reach the end. -/
theorem ne_nil_of_reaches_end (c : CapIndex) (xs : List Sample) (h : c.toNat + xs.length = 4096) : xs ≠ [] := by
  rintro rfl
  exact c.isLt.ne h

/-- Settles O43, from the induction over the beats. -/
theorem beatsFillTheHotSlotInOrder : Obligations.BeatsFillTheHotSlotInOrder := by
  intro s xs harmed hfit
  obtain ⟨t, hrun, hfill⟩ := execAll_beats xs s harmed hfit
  refine ⟨t, hrun, fun slot i _ => hfill.contents slot i, ?_, hfill.cursor, hfill.frame⟩
  rw [hfill.flip]
  exact ⟨fun h => ⟨h, ne_nil_of_reaches_end _ xs h⟩, And.left⟩

/-! ## The DC arithmetic (R95) -/

/-- The fixed point of the filter: the accumulator stays where its estimate is the mean. -/
theorem dcNext_eq_self_iff (acc : DcAcc) (mean : Nat) (hacc : acc.toNat < 2 ^ 20) (hmean : mean < 2 ^ 16) :
    dcNext acc mean = acc ↔ acc.toNat / 16 = mean := by
  rw [← BitVec.toNat_inj, (dcNext_toNat acc mean hacc hmean).1]
  omega

/-- A difference in the range of two's complement is exact. -/
theorem sub_toInt_of_mem_range (x dc : Sample) (hlo : -32768 ≤ (x.toNat : Int) - dc.toNat)
    (hhi : (x.toNat : Int) - dc.toNat ≤ 32767) : (x - dc).toInt = (x.toNat : Int) - dc.toNat := by
  have hx := x.isLt
  have hdc := dc.isLt
  rw [BitVec.toInt_eq_toNat_cond, BitVec.toNat_sub]
  split_ifs <;> omega

/-- Settles O42, from the bounds of the sum and of the update. -/
theorem dcFilterIsExact : Obligations.DcFilterIsExact := by
  refine ⟨fun s slot => ⟨?_, slotMean_eq s slot, slotMean_lt s slot⟩, fun acc mean hacc hmean => ?_,
    sub_toInt_of_mem_range⟩
  · have hsum := slotSum_le s slot
    omega
  · obtain ⟨hnext, hlt⟩ := dcNext_toNat acc mean hacc hmean
    exact ⟨hnext, hlt, dcEstimate_toNat_of_lt _ hlt, dcNext_eq_self_iff acc mean hacc hmean⟩

/-! ## The take (R92, R98) -/

/-- The accumulator of a take, as the rule writes it. -/
theorem takeAcc_eq (s : State) :
    takeAcc s = s.cap.dcAcc - (s.cap.dcAcc >>> 4) + BitVec.ofNat 32
      (((List.range 4096).map fun i => (capSample s (!s.cap.active) i).toNat).sum / 4096) := by
  rw [takeAcc, dcNext, slotMean_eq, slotSum_eq]
  rfl

/-- The state `CAP_TAKE` leaves. -/
def afterTake (s : State) : State := respond (takeSlot s) .ok (slotWord (capCold s.cap))

theorem exec_capTake_afterTake (s : State) : exec .capTake s = .next (afterTake s) := exec_capTake s

/-- Of the capture unit a take writes the cold slot and the accumulator. -/
theorem afterTake_eq (s : State) :
    afterTake s = { s with
      cap := { s.cap with mem := (afterTake s).cap.mem, dcAcc := takeAcc s },
      rsp := some ⟨.ok, slotWord (!s.cap.active)⟩, cmdPort := none } := rfl

@[simp] theorem afterTake_armed (s : State) : (afterTake s).cap.armed = s.cap.armed := rfl
@[simp] theorem afterTake_active (s : State) : (afterTake s).cap.active = s.cap.active := rfl
@[simp] theorem afterTake_cursor (s : State) : (afterTake s).cap.cursor = s.cap.cursor := rfl
@[simp] theorem afterTake_dcAcc (s : State) : (afterTake s).cap.dcAcc = takeAcc s := rfl
@[simp] theorem afterTake_rsp (s : State) : (afterTake s).rsp = some ⟨.ok, slotWord (!s.cap.active)⟩ := rfl

theorem capSample_afterTake_eq (s : State) (slot : Slot) (i : Nat) :
    capSample (afterTake s) slot i = capSample (takeSlot s) slot i := capSample_congr _ _ slot i rfl rfl

theorem capSample_afterTake_cold (s : State) (i : Nat) (hi : i < 4096) :
    capSample (afterTake s) (!s.cap.active) i = capSample s (!s.cap.active) i - dcEstimate (takeAcc s) := by
  rw [capSample_afterTake_eq, capSample_takeSlot s _ i hi, if_pos rfl]

theorem capSample_afterTake_hot (s : State) (i : Nat) (hi : i < 4096) :
    capSample (afterTake s) s.cap.active i = capSample s s.cap.active i := by
  rw [capSample_afterTake_eq, capSample_takeSlot s _ i hi, if_neg (Bool.not_ne_self _).symm]

theorem slotWord_eq_ite (slot : Slot) : slotWord slot = if slot = true then 1 else 0 := by
  cases slot <;> rfl

theorem slotWord_not_eq_ite (slot : Slot) : slotWord (!slot) = if slot = true then 0 else 1 := by
  cases slot <;> rfl

/-- Settles O38: the correction of both slots and the frame of a take, its accumulator as the rule writes it. -/
theorem capTakeCorrectsTheColdSlot : Obligations.CapTakeCorrectsTheColdSlot := by
  intro s c sum acc' dc
  have hacc : takeAcc s = acc' := takeAcc_eq s
  have hdc : dcEstimate (takeAcc s) = dc := by rw [hacc]; exact dcEstimate_eq_extractLsb' acc'
  refine ⟨afterTake s, exec_capTake_afterTake s, fun i hi => ?_, fun i hi => ?_, ?_⟩
  · rw [← hdc]
    exact capSample_afterTake_cold s i hi
  · rw [Bool.not_not]
    exact capSample_afterTake_hot s i hi
  · rw [← hacc, ← slotWord_eq_ite]
    exact afterTake_eq s

/-- Settles O46: the selector does not move between the two takes, so the second corrects what the first one left. -/
theorem secondTakeCorrectsCorrectedValues : Obligations.SecondTakeCorrectsCorrectedValues := by
  intro s
  refine ⟨afterTake s, afterTake (afterTake s), exec_capTake_afterTake s, exec_capTake_afterTake _,
    by rw [afterTake_rsp, afterTake_rsp, afterTake_active], fun i hi => ?_⟩
  have hsecond := capSample_afterTake_cold (afterTake s) i hi
  rwa [afterTake_active, capSample_afterTake_cold s i hi] at hsecond

/-! ## One fill of a slot and its take (R96) -/

/-- An armed unit at the start of its hot slot, as `CAP_BEGIN` and the take of a slot just filled leave it. -/
structure FillStarts (s : State) : Prop where
  armed : s.cap.armed = true
  cursor : s.cap.cursor = 0

/-- The unit after the beats of `xs`, a whole slot, and a take: the slot they filled is cold and corrected, its mean is
in the accumulator, and the next fill starts in the other slot. -/
structure FilledAndTaken (s : State) (xs : List Sample) (t : State) : Prop extends FillStarts t where
  active : t.cap.active = !s.cap.active
  rsp : t.rsp = some ⟨.ok, slotWord s.cap.active⟩
  dcAcc : t.cap.dcAcc = dcNext s.cap.dcAcc ((xs.map BitVec.toNat).sum / 4096)
  contents : ∀ i < 4096, capSample t s.cap.active i = xs.getD i 0 - dcEstimate t.cap.dcAcc

theorem map_getD_range (xs : List Sample) :
    (List.range xs.length).map (fun i => (xs.getD i 0).toNat) = xs.map BitVec.toNat := by
  refine List.ext_getElem (by simp) fun i _ hi => ?_
  rw [List.length_map] at hi
  rw [List.getElem_map, List.getElem_map, List.getElem_range, List.getD_eq_getElem _ _ hi]

/-- The mean of a slot that holds the values of a list. -/
theorem slotMean_of_contents (s : State) (slot : Slot) (xs : List Sample) (hlen : xs.length = 4096)
    (h : ∀ i < 4096, capSample s slot i = xs.getD i 0) : slotMean s slot = (xs.map BitVec.toNat).sum / 4096 := by
  have hmap : (List.range 4096).map (fun i => (capSample s slot i).toNat) = xs.map BitVec.toNat := by
    rw [← map_getD_range, hlen]
    exact List.map_congr_left fun i hi => by rw [h i (List.mem_range.mp hi)]
  rw [slotMean_eq, slotSum_eq, hmap]

/-- A whole fill from the start of the hot slot, and its take. -/
theorem FillStarts.fill_take {s : State} (h : FillStarts s) (xs : List Sample) (hlen : xs.length = 4096) :
    ∃ t, execAll (beats xs ++ [.capTake]) s = .next t ∧ FilledAndTaken s xs t := by
  have hstart : s.cap.cursor.toNat = 0 := congrArg BitVec.toNat h.cursor
  obtain ⟨u, hrun, hfill⟩ := execAll_beats xs s h.armed (by omega)
  have hactive : u.cap.active = !s.cap.active := Bool.eq_not.mpr (hfill.flip.mpr (by omega))
  have hcold : (!u.cap.active) = s.cap.active := by rw [hactive, Bool.not_not]
  have hcursor : u.cap.cursor = 0 := BitVec.eq_of_toNat_eq (by rw [hfill.cursor, hstart, hlen]; rfl)
  have hcontents : ∀ i < 4096, capSample u s.cap.active i = xs.getD i 0 := fun i hi => by
    rw [hfill.contents, if_pos ⟨rfl, by omega, by omega⟩, hstart, Nat.sub_zero]
  have harmed : u.cap.armed = true := by rw [hfill.frame]; exact h.armed
  have hdcAcc : u.cap.dcAcc = s.cap.dcAcc := by rw [hfill.frame]
  refine ⟨afterTake u, ?_, ⟨(afterTake_armed u).trans harmed, (afterTake_cursor u).trans hcursor⟩,
    (afterTake_active u).trans hactive, ?_, ?_, fun i hi => ?_⟩
  · rw [execAll_append _ _ _ _ hrun, execAll_cons, exec_capTake_afterTake, andThen_next, execAll_nil]
  · rw [afterTake_rsp, hcold]
  · rw [afterTake_dcAcc, takeAcc, capCold, hcold, hdcAcc, slotMean_of_contents u _ xs hlen hcontents]
  · have hcorrected := capSample_afterTake_cold u i hi
    rwa [hcold, hcontents i hi] at hcorrected

/-- An accepted `CAP_BEGIN` starts a fill of slot 0 with the accumulator cleared. -/
theorem exec_capBegin_starts (pin : Pin) (rate : Rate) (s : State) (hrate : rate ≠ 0) :
    ∃ t, exec (.capBegin pin rate) s = .next t ∧ FillStarts t ∧ t.cap.active = false ∧ t.cap.dcAcc = 0 :=
  ⟨_, (capBeginArmsCapture pin rate s).2 hrate, ⟨rfl, rfl⟩, rfl, rfl⟩

/-- Settles O44: two fills and takes in a row after `CAP_BEGIN`, the first of slot 0 and the second of slot 1. -/
theorem takenSlotIsTheFilledOne : Obligations.TakenSlotIsTheFilledOne := by
  refine ⟨fun s => ⟨afterTake s, exec_capTake_afterTake s, rfl, by rw [afterTake_rsp, slotWord_not_eq_ite]⟩,
    fun s pin rate xs ys hrate hxs hys => ?_⟩
  obtain ⟨b, hbegin, hstart, hactive, _⟩ := exec_capBegin_starts pin rate s hrate
  obtain ⟨t, hfirst, ht⟩ := hstart.fill_take xs hxs
  obtain ⟨u, hsecond, hu⟩ := ht.toFillStarts.fill_take ys hys
  have htactive : t.cap.active = true := by rw [ht.active, hactive]; rfl
  refine ⟨⟨t, ?_, ?_, htactive, ?_⟩, ⟨u, ?_, ?_, ?_, ?_⟩⟩
  · rw [execAll_cons, hbegin, andThen_next, hfirst]
  · rw [ht.rsp, hactive]; rfl
  · rw [← hactive]; exact ht.contents
  · rw [execAll_cons, hbegin, andThen_next, List.append_assoc, execAll_append _ _ _ _ hfirst, hsecond]
  · rw [hu.rsp, htactive]; rfl
  · rw [hu.active, htactive]; rfl
  · rw [← htactive]; exact hu.contents

/-! ## The filter on a constant input (R97) -/

/-- The accumulator after `n` takes of slots whose mean is `k`, from 0, as numbers (R92). -/
def constAcc (k : Nat) : Nat → Nat
  | 0 => 0
  | n + 1 => constAcc k n - constAcc k n / 16 + k

theorem constAcc_succ (k n : Nat) : constAcc k (n + 1) = constAcc k n - constAcc k n / 16 + k := rfl

theorem constAcc_le (k n : Nat) : constAcc k n ≤ 16 * k := by
  induction n with
  | zero => exact Nat.zero_le _
  | succ n ih => rw [constAcc_succ]; omega

theorem constAcc_le_succ (k n : Nat) : constAcc k n ≤ constAcc k (n + 1) := by
  have hle := constAcc_le k n
  rw [constAcc_succ]; omega

/-- The accumulator grows by 1 at least with every take, until it is at its limit. -/
theorem le_constAcc (k n : Nat) : n ≤ constAcc k n ∨ constAcc k n = 16 * k := by
  induction n with
  | zero => exact .inl (Nat.zero_le _)
  | succ n ih =>
    have hle := constAcc_le k n
    rw [constAcc_succ]
    omega

theorem constAcc_eq_of_ge (k n : Nat) (hn : 16 * k ≤ n) : constAcc k n = 16 * k := by
  have hle := constAcc_le k n
  rcases le_constAcc k n with hgrown | heq
  · omega
  · exact heq

/-- The distance of the accumulator to its limit shrinks by the factor 15/16 at least with every take. -/
theorem constAcc_distance_le (k n : Nat) : 16 ^ n * (16 * k - constAcc k n) ≤ 16 * k * 15 ^ n := by
  induction n with
  | zero => simp [constAcc]
  | succ n ih =>
    have hle := constAcc_le k n
    have hstep : 16 * (16 * k - constAcc k (n + 1)) ≤ 15 * (16 * k - constAcc k n) := by rw [constAcc_succ]; omega
    calc 16 ^ (n + 1) * (16 * k - constAcc k (n + 1))
        = 16 ^ n * (16 * (16 * k - constAcc k (n + 1))) := by ring
      _ ≤ 16 ^ n * (15 * (16 * k - constAcc k n)) := Nat.mul_le_mul_left _ hstep
      _ = 15 * (16 ^ n * (16 * k - constAcc k n)) := by ring
      _ ≤ 15 * (16 * k * 15 ^ n) := Nat.mul_le_mul_left _ ih
      _ = 16 * k * 15 ^ (n + 1) := by ring

/-- The bound of R97: the division of the accumulator by 16 costs less than 1. -/
theorem constAcc_estimate_bound (k n : Nat) : 16 ^ n * (k - constAcc k n / 16) ≤ k * 15 ^ n + 16 ^ n := by
  have hdist := constAcc_distance_le k n
  have hfloor : 16 * (k - constAcc k n / 16) ≤ (16 * k - constAcc k n) + 16 := by omega
  refine Nat.le_of_mul_le_mul_left (c := 16) ?_ (by decide)
  calc 16 * (16 ^ n * (k - constAcc k n / 16))
      = 16 ^ n * (16 * (k - constAcc k n / 16)) := by ring
    _ ≤ 16 ^ n * ((16 * k - constAcc k n) + 16) := Nat.mul_le_mul_left _ hfloor
    _ = 16 ^ n * (16 * k - constAcc k n) + 16 * 16 ^ n := by ring
    _ ≤ 16 * k * 15 ^ n + 16 * 16 ^ n := Nat.add_le_add_right hdist _
    _ = 16 * (k * 15 ^ n + 16 ^ n) := by ring

/-- The estimates for `k = 2048` that R97 writes out. -/
theorem constAcc_2048 :
    [1, 2, 5, 10, 20, 50, 100, 128].map (fun n => 2048 - constAcc 2048 n / 16) =
      [1920, 1800, 1484, 1074, 564, 81, 3, 0] := by
  decide

/-! ## Rounds of a constant input (R97) -/

/-- The unit after `n` takes of fills with the constant `k`, one take after each fill. -/
structure ConstantTaken (k : Sample) (n : Nat) (t : State) : Prop extends FillStarts t where
  dcAcc : t.cap.dcAcc.toNat = constAcc k.toNat n
  rsp : t.rsp = some ⟨.ok, slotWord (!t.cap.active)⟩
  contents : ∀ i < 4096, capSample t (!t.cap.active) i = k - dcEstimate t.cap.dcAcc

theorem dcEstimate_of_constAcc {k : Sample} {n : Nat} {acc : DcAcc} (h : acc.toNat = constAcc k.toNat n) :
    (dcEstimate acc).toNat = constAcc k.toNat n / 16 := by
  have hk := k.isLt
  have hle := constAcc_le k.toNat n
  rw [dcEstimate_toNat_of_lt acc (by omega), h]

/-- One more round, from wherever the filter stands. -/
theorem FillStarts.constant_round {s : State} (h : FillStarts s) (k : Sample) (n : Nat)
    (hacc : s.cap.dcAcc.toNat = constAcc k.toNat n) :
    ∃ t, execAll (beats (List.replicate 4096 k) ++ [.capTake]) s = .next t ∧ ConstantTaken k (n + 1) t := by
  have hk := k.isLt
  have hle := constAcc_le k.toNat n
  obtain ⟨t, hrun, ht⟩ := h.fill_take (List.replicate 4096 k) List.length_replicate
  have hcold : (!t.cap.active) = s.cap.active := by rw [ht.active, Bool.not_not]
  have hmean : ((List.replicate 4096 k).map BitVec.toNat).sum / 4096 = k.toNat := by
    rw [List.map_replicate, List.sum_replicate, smul_eq_mul, Nat.mul_div_cancel_left _ (by decide)]
  refine ⟨t, hrun, ht.toFillStarts, ?_, ?_, fun i hi => ?_⟩
  · rw [ht.dcAcc, hmean, (dcNext_toNat _ _ (by omega) hk).1, hacc, constAcc_succ]
  · rw [ht.rsp, hcold]
  · rw [hcold, ht.contents i hi, List.getD_replicate _ hi]

theorem execAll_captureRounds_succ (k : Sample) (n : Nat) (s t : State)
    (h : execAll (beats (List.replicate 4096 k) ++ [.capTake]) s = .next t) :
    execAll (captureRounds k (n + 1)) s = execAll (captureRounds k n) t := by
  rw [captureRounds, execAll_append _ _ _ _ h]

/-- Any number of rounds, by induction over them. -/
theorem FillStarts.constant_rounds {s : State} (h : FillStarts s) (k : Sample) (m n : Nat)
    (hacc : s.cap.dcAcc.toNat = constAcc k.toNat m) :
    ∃ t, execAll (captureRounds k (n + 1)) s = .next t ∧ ConstantTaken k (m + (n + 1)) t := by
  induction n generalizing s m with
  | zero =>
    obtain ⟨t, hround, ht⟩ := h.constant_round k m hacc
    exact ⟨t, by rw [execAll_captureRounds_succ k 0 s t hround]; rfl, ht⟩
  | succ n ih =>
    obtain ⟨u, hround, hu⟩ := h.constant_round k m hacc
    obtain ⟨t, hrun, ht⟩ := ih hu.toFillStarts (m + 1) hu.dcAcc
    refine ⟨t, ?_, by rwa [show m + (n + 1 + 1) = m + 1 + (n + 1) by omega]⟩
    rw [execAll_captureRounds_succ k (n + 1) s u hround, hrun]

/-- Settles O45: the estimates are those of the filter over numbers, which the rounds follow. -/
theorem dcEstimateConvergesToAConstant : Obligations.DcEstimateConvergesToAConstant := by
  intro k
  refine ⟨fun n => constAcc k.toNat n / 16, fun n => ⟨?_, ?_, constAcc_estimate_bound _ n⟩,
    ⟨16 * k.toNat, fun n hn => ?_⟩, ?_, fun n s pin rate hrate hn => ?_⟩
  · exact Nat.div_le_div_right (constAcc_le_succ _ n)
  · exact Nat.div_le_of_le_mul (constAcc_le _ n)
  · exact Nat.div_eq_of_eq_mul_right (by decide) (constAcc_eq_of_ge _ n hn)
  · rintro rfl
    exact constAcc_2048
  · obtain ⟨m, rfl⟩ := Nat.exists_eq_succ_of_ne_zero hn
    obtain ⟨b, hbegin, hstart, _, hzero⟩ := exec_capBegin_starts pin rate s hrate
    obtain ⟨t, hrun, ht⟩ := hstart.constant_rounds k 0 m (by rw [hzero]; rfl)
    rw [Nat.zero_add] at ht
    have hdc := dcEstimate_of_constAcc ht.dcAcc
    have hle := constAcc_le k.toNat (m + 1)
    refine ⟨t, ?_, hdc, by rw [ht.rsp, slotWord_not_eq_ite], fun i hi => ?_⟩
    · rw [execAll_cons, hbegin, andThen_next, hrun]
    · rw [ht.contents i hi, BitVec.toNat_sub_of_le (by rw [BitVec.le_def, hdc]; omega), hdc]

end Sys2Proof.Machine

/-! The exceptions (60_exceptions.md): no step stops (R100), which commands are refused and with which code (R101, R102,
R105), the two events (R103), and the order of the events of one step (R104). -/

namespace Sys2Proof.Machine

/-! ## The turns of the three ports (R100, R104) -/

/-- The tick port's turn goes on to `t`: it is the tick, or nothing. -/
theorem runTick_eq_next_iff (b : TickWord) (s t : State) :
    runTick b s = .next t ↔ if b = 1 then exec .pbTick s = .next t else t = s := by
  rw [runTick_eq]
  split_ifs
  · rfl
  · rw [Host.Outcome.next.injEq, eq_comm]

/-- The DMA port's turn goes on to `t`: it is the beat, or nothing. -/
theorem runDma_eq_next_iff (d : DmaWord) (s t : State) :
    runDma d s = .next t ↔ if d.getLsbD 16 = true then exec (.capDmaWr (d.extractLsb' 0 16)) s = .next t else t = s := by
  rw [runDma_eq]
  split_ifs
  · rfl
  · rw [Host.Outcome.next.injEq, eq_comm]

/-- The tick port's turn goes on and leaves the presented command. -/
theorem runTick_goes_on (b : TickWord) (s : State) : ∃ t, runTick b s = .next t ∧ t.cmdPort = s.cmdPort := by
  rw [runTick_eq]
  split_ifs
  · obtain ⟨t, ht⟩ := exec_goes_on .pbTick s
    obtain ⟨hport, _⟩ := exec_event_port _ s t (.inl rfl) ht
    exact ⟨t, ht, hport⟩
  · exact ⟨s, rfl, rfl⟩

/-- The command port's turn goes on: it carries nothing, a word that is accepted, or one that waits. -/
theorem runCommand_goes_on (s : State) : ∃ t, runCommand s = .next t := by
  cases hw : s.cmdPort with
  | none => exact ⟨s, runCommand_of_none s hw⟩
  | some w =>
    cases hready : cmdReady s w with
    | true =>
      obtain ⟨u, code, data, hrun⟩ := runCommand_of_ready s w hw hready
      exact ⟨_, hrun⟩
    | false => exact ⟨s, runCommand_of_not_ready s w hw hready⟩

/-- A step without reset comes, through the tick and the beat, to the turn of the command presented at its start. -/
theorem runPorts_eq_runCommand (m : HwMove) (s : State) :
    ∃ s₁ s₂, runTick m.tick s = .next s₁ ∧ runDma m.dma s₁ = .next s₂ ∧ s₂.cmdPort = s.cmdPort ∧
      runPorts m s = runCommand s₂ := by
  obtain ⟨s₁, htick, hport₁⟩ := runTick_goes_on m.tick s
  obtain ⟨s₂, hdma, _, hport₂, _⟩ := runDma_goes_on m.dma s₁
  exact ⟨s₁, s₂, htick, hdma, hport₂.trans hport₁, by rw [runPorts, htick, andThen_next, hdma, andThen_next]⟩

theorem step_goes_on (s : State) : ∃ t, step s = .next t := by
  cases hrst : (currentMove s).rst with
  | true => exact ⟨_, step_of_rst s hrst⟩
  | false =>
    obtain ⟨_, s₂, _, _, _, hrun⟩ := runPorts_eq_runCommand (currentMove s) (stepStart s)
    rw [step_of_not_rst s hrst, hrun]
    exact runCommand_goes_on s₂

/-- A submit that waits while `pb_full` is accepted in the step of the tick that flips: the flip moves the selector away
from `pb_seen`. -/
theorem step_accepts_submit_at_flip (s : State) (w : CmdWord) (ptr : Addr) (len : Len) (hrst : (currentMove s).rst = false)
    (htick : (currentMove s).tick = 1) (hport : s.cmdPort = some w) (hdec : decodeCmd w = .ok (.pbSubmit ptr len))
    (hok : submitRefused ptr len = false) (harmed : s.pb.armed = true) (hfull : pbFull s.pb = true)
    (hend : (s.pb.len.get s.pb.active).toNat ≤ s.pb.cursor.toNat + 1) :
    ∃ u, step s = .next (respond u .ok 0) := by
  obtain ⟨hseen, hhot⟩ := (pbFull_iff s.pb).mp hfull
  obtain ⟨u, hstep, hport', _, hpb⟩ := step_of_draining_tick s w hrst htick harmed hhot hport
  rcases advanceCursor_cases { s.pb with dacOut := u.pb.dacOut } with ⟨_, heq⟩ | ⟨hin, _⟩
  · have hfree : pbFull u.pb = false := pbFull_of_seen_ne _ (by rw [hpb, heq]; simp [hseen])
    rw [hstep, runCommand_of_ok u w _ hport' hdec, exec_pbSubmit_accepted ptr len u hok hfree]
    exact ⟨_, rfl⟩
  · exact absurd hend (Nat.not_le.mpr hin)

/-- Settles O7: the states between the turns, and the submit that waits for the flip. -/
theorem simultaneousEventsGoInOrder : Obligations.SimultaneousEventsGoInOrder := by
  refine ⟨fun s hrst => ?_, fun s w ptr len hrst htick hport hdec hlen heven harmed hfull hend => ?_⟩
  · obtain ⟨s₁, s₂, htick, hdma, hport, hrun⟩ := runPorts_eq_runCommand (currentMove s) (stepStart s)
    rw [step_of_not_rst s hrst, hrun]
    refine ⟨s₁, s₂, (runTick_eq_next_iff ..).mp htick, (runDma_eq_next_iff ..).mp hdma, fun w i hw hdec => ?_,
      fun w hw hillegal => ?_, fun hw => ?_⟩
    · exact runCommand_of_ok s₂ w i (hport.trans hw) hdec
    · obtain ⟨_, hanswers⟩ := illegalWordsAnswerIllegal
      obtain ⟨_, hanswer⟩ := hanswers s₂ w (hport.trans hw) hillegal
      exact hanswer
    · exact runCommand_of_none s₂ (hport.trans hw)
  · have hok := (submitRefused_eq_false ptr len).mpr ⟨hlen, heven⟩
    obtain ⟨u, hstep⟩ := step_accepts_submit_at_flip s w ptr len hrst htick hport hdec hok harmed hfull hend
    exact ⟨_, hstep, respond_cmdPort .., respond_rsp ..⟩

/-- Settles O8: every operation goes on, so each of the three turns of a step does. -/
theorem everyStepGoesOn : Obligations.EveryStepGoesOn := ⟨exec_goes_on, step_goes_on⟩

/-! ## Refusals (R101, R102, R105) -/

/-- The operands of a legal encoding that the block refuses (R101). -/
def operandsRefused : Instr → Bool
  | .pbBegin _ rate _ => rateRefused rate
  | .capBegin _ rate => rateRefused rate
  | .pbSubmit ptr len => submitRefused ptr len
  | _ => false

/-- The list of R101, command by command. -/
theorem exists_operandsRefused_iff (w : CmdWord) :
    (∃ i, decodeCmd w = .ok i ∧ operandsRefused i = true) ↔
      (∃ pin clk, decodeCmd w = .ok (.pbBegin pin 0 clk)) ∨ (∃ pin, decodeCmd w = .ok (.capBegin pin 0)) ∨
      (∃ ptr len, decodeCmd w = .ok (.pbSubmit ptr len) ∧ (len = 0 ∨ ptr.getLsbD 0 = true)) := by
  constructor
  · rintro ⟨i, hdec, hrefused⟩
    cases i with
    | pbBegin pin rate clk =>
      obtain rfl := (rateRefused_iff rate).mp hrefused
      exact .inl ⟨pin, clk, hdec⟩
    | capBegin pin rate =>
      obtain rfl := (rateRefused_iff rate).mp hrefused
      exact .inr (.inl ⟨pin, hdec⟩)
    | pbSubmit ptr len => exact .inr (.inr ⟨ptr, len, hdec, (submitRefused_iff ptr len).mp hrefused⟩)
    | pbEnd | pbStat | capEnd | capTake | capStat | capRd | pbTick | capDmaWr => cases hrefused
  · rintro (⟨pin, clk, hdec⟩ | ⟨pin, hdec⟩ | ⟨ptr, len, hdec, hoperands⟩)
    · exact ⟨_, hdec, rfl⟩
    · exact ⟨_, hdec, rfl⟩
    · exact ⟨_, hdec, (submitRefused_iff ptr len).mpr hoperands⟩

theorem exec_of_operandsRefused (i : Instr) (s : State) (h : operandsRefused i = true) :
    exec i s = .next (refuseCommand s .cfgErr) := by
  cases i with
  | pbBegin pin rate clk => exact exec_pbBegin_refused pin rate clk s h
  | capBegin pin rate => exact exec_capBegin_refused pin rate s h
  | pbSubmit ptr len => exact exec_pbSubmit_refused ptr len s h
  | pbEnd | pbStat | capEnd | capTake | capStat | capRd | pbTick | capDmaWr => cases h

/-- With operands that are not refused, the only response an operation gives is `OK`. -/
theorem exec_rsp_of_operands_ok (i : Instr) (s t : State) (hok : operandsRefused i = false) (h : exec i s = .next t) :
    t.rsp = s.rsp ∨ ∃ d, t.rsp = some ⟨.ok, d⟩ := by
  cases i with
  | pbBegin pin rate clk =>
    cases (exec_pbBegin_accepted pin rate clk s hok).symm.trans h
    exact .inr ⟨_, rfl⟩
  | capBegin pin rate =>
    cases (exec_capBegin_accepted pin rate s hok).symm.trans h
    exact .inr ⟨_, rfl⟩
  | pbSubmit ptr len =>
    cases hf : pbFull s.pb with
    | true =>
      cases (exec_pbSubmit_waits ptr len s hok hf).symm.trans h
      exact .inl rfl
    | false =>
      cases (exec_pbSubmit_accepted ptr len s hok hf).symm.trans h
      exact .inr ⟨_, rfl⟩
  | pbTick =>
    obtain ⟨_, hrsp⟩ := exec_event_port _ s t (.inl rfl) h
    exact .inl hrsp
  | capDmaWr data =>
    obtain ⟨_, hrsp⟩ := exec_event_port _ s t (.inr ⟨data, rfl⟩) h
    exact .inl hrsp
  | pbEnd | pbStat | capEnd | capTake | capStat | capRd =>
    cases h
    exact .inr ⟨_, rfl⟩

/-- How the turn of a presented word ends: `ILLEGAL`, `CFGERR`, or no response but `OK`. -/
theorem runCommand_refusal_cases (s t : State) (w : CmdWord) (hw : s.cmdPort = some w) (hrsp : s.rsp = none)
    (h : runCommand s = .next t) :
    ((¬ ∃ i, decodeCmd w = .ok i) ∧ t = refuseCommand s .illegal) ∨
    (∃ i, decodeCmd w = .ok i ∧ operandsRefused i = true ∧ t = refuseCommand s .cfgErr) ∨
    (∃ i, decodeCmd w = .ok i ∧ operandsRefused i = false ∧ ∀ c d, t.rsp = some ⟨c, d⟩ → c = .ok) := by
  cases hdec : decodeCmd w with
  | error r =>
    cases (runCommand_of_error s w r hw hdec).symm.trans h
    exact .inl ⟨nofun, rfl⟩
  | ok i =>
    rw [runCommand_of_ok s w i hw hdec] at h
    cases hi : operandsRefused i with
    | true =>
      cases (exec_of_operandsRefused i s hi).symm.trans h
      exact .inr (.inl ⟨i, rfl, hi, rfl⟩)
    | false =>
      refine .inr (.inr ⟨i, rfl, hi, fun c d hc => ?_⟩)
      rcases exec_rsp_of_operands_ok i s t hi h with hkept | ⟨d', hok⟩
      · cases (hkept.trans hrsp).symm.trans hc
      · cases hok.symm.trans hc
        rfl

/-- Settles O32: one case for each way the turn can end. -/
theorem refusalsAreTheListedOnes : Obligations.RefusalsAreTheListedOnes := by
  intro s t w hw hrsp h
  rw [← exists_operandsRefused_iff]
  rcases runCommand_refusal_cases s t w hw hrsp h with ⟨hillegal, rfl⟩ | ⟨i, hdec, hi, rfl⟩ | ⟨i, hdec, hi, hok⟩
  · refine ⟨⟨nofun, fun ⟨i, hdec, _⟩ => absurd ⟨i, hdec⟩ hillegal⟩, ⟨fun _ => hillegal, fun _ => ⟨0, rfl⟩⟩, ?_⟩
    rintro _ _ ⟨⟩ _
    exact ⟨rfl, rfl⟩
  · refine ⟨⟨fun _ => ⟨i, hdec, hi⟩, fun _ => ⟨0, rfl⟩⟩, ⟨nofun, fun hillegal => absurd ⟨i, hdec⟩ hillegal⟩, ?_⟩
    rintro _ _ ⟨⟩ _
    exact ⟨rfl, rfl⟩
  · refine ⟨⟨fun ⟨d, hd⟩ => ?_, fun ⟨j, hj, hrefused⟩ => ?_⟩, ⟨fun ⟨d, hd⟩ => ?_, fun hillegal => absurd ⟨i, hdec⟩ hillegal⟩,
      fun c d hd hne => absurd (hok c d hd) hne⟩
    · cases hok _ d hd
    · cases hdec.symm.trans hj
      cases hi.symm.trans hrefused
    · cases hok _ d hd

/-- Settles O33: none of the six looks at its operands or at the handshake before it responds. -/
theorem sixCommandsAlwaysAnswerOk : Obligations.SixCommandsAlwaysAnswerOk := by
  intro i s hi
  have hresponds : ∃ u d, exec i s = .next (respond u .ok d) := by
    rcases hi with rfl | rfl | rfl | rfl | rfl | ⟨slot, index, rfl⟩ <;> exact ⟨_, _, rfl⟩
  obtain ⟨u, d, hexec⟩ := hresponds
  exact ⟨_, d, hexec, respond_rsp .., respond_cmdPort ..⟩

/-! ## The two events (R102, R103) -/

/-- Settles O34: the frame of an event, and what it does while its unit is disarmed. -/
theorem eventsNeverRespond : Obligations.EventsNeverRespond := by
  intro i s t hi h
  obtain ⟨hport, hrsp⟩ := exec_event_port i s t hi h
  obtain ⟨_, happ, _⟩ := exec_env i s t h
  refine ⟨hrsp, hport, happ, fun hdisarmed htick => ?_, fun hdisarmed hne => ?_⟩
  · subst htick
    cases (exec_pbTick_disarmed s hdisarmed).symm.trans h
    rfl
  · obtain ⟨data, rfl⟩ := hi.resolve_left hne
    cases (exec_capDmaWr_disarmed data s hdisarmed).symm.trans h
    rfl

end Sys2Proof.Machine

/-! Reset and hazards (70_reset_and_hazards.md): a step with `rst` (R116), the operations between reset and the first
`begin` (R117), and the `PB_SUBMIT` that waits for a tick that never drains (R120). -/

namespace Sys2Proof.Machine

/-! ## A step with `rst` (R116) -/

/-- Settles O11: such a step runs none of the ports, and `resetBlock` writes every register. -/
theorem resetPinClearsTheBlock : Obligations.ResetPinClearsTheBlock := fun s hrst =>
  ⟨_, step_of_rst s hrst, rfl, rfl, rfl, rfl, rfl, rfl, rfl, rfl, rfl, rfl, rfl, rfl⟩

/-! ## Between reset and the first `begin` (R117) -/

/-- The registers that the operations before any `begin` look at have their reset values. Of the capture unit the cursor
and the containers are left open. -/
structure BeforeAnyBegin (s : State) : Prop where
  pb : s.pb = PbUnit.reset
  capArmed : s.cap.armed = false
  capActive : s.cap.active = false
  dcAcc : s.cap.dcAcc = 0

theorem PbUnit.disarm_of_disarmed (p : PbUnit) (h : p.armed = false) : { p with armed := false } = p := by rw [← h]

theorem CapUnit.disarm_of_disarmed (c : CapUnit) (h : c.armed = false) : { c with armed := false } = c := by rw [← h]

theorem exec_pbEnd_disarmed (s : State) (h : s.pb.armed = false) : exec .pbEnd s = .next (respond s .ok 0) :=
  congrArg (fun p => Host.Outcome.next (respond { s with pb := p } .ok 0)) (PbUnit.disarm_of_disarmed s.pb h)

theorem exec_capEnd_disarmed (s : State) (h : s.cap.armed = false) : exec .capEnd s = .next (respond s .ok 0) :=
  congrArg (fun c => Host.Outcome.next (respond { s with cap := c } .ok 0)) (CapUnit.disarm_of_disarmed s.cap h)

/-- The playback unit after a first submit: a prime of slot 0, the hot slot of a unit that no `PB_BEGIN` has touched. -/
def firstSubmitted (p : Addr) (l : Len) : PbUnit := { PbUnit.reset with ptr := ⟨p, 0⟩, len := ⟨l, 0⟩, seen := true }

/-- The playback unit after a second submit: a handoff into slot 1. -/
def secondSubmitted (p₁ p₂ : Addr) (l₁ l₂ : Len) : PbUnit := { PbUnit.reset with ptr := ⟨p₁, p₂⟩, len := ⟨l₁, l₂⟩ }

theorem exec_pbSubmit_first (p : Addr) (l : Len) (s : State) (hpb : s.pb = PbUnit.reset)
    (hok : submitRefused p l = false) :
    exec (.pbSubmit p l) s = .next (respond { s with pb := firstSubmitted p l } .ok 0) := by
  rw [exec_pbSubmit_primes p l s hok (by rw [hpb]; rfl), hpb]
  rfl

theorem exec_pbSubmit_second (p₁ p₂ : Addr) (l₁ l₂ : Len) (s : State) (hpb : s.pb = firstSubmitted p₁ l₁) (hl₁ : l₁ ≠ 0)
    (hok : submitRefused p₂ l₂ = false) :
    exec (.pbSubmit p₂ l₂) s = .next (respond { s with pb := secondSubmitted p₁ p₂ l₁ l₂ } .ok 0) := by
  rw [exec_pbSubmit_hands_off p₂ l₂ s hok (by rw [hpb]; exact Bool.false_ne_true.symm) (by rw [hpb]; exact hl₁), hpb]
  rfl

/-- After two submits the handshake is full, though the unit is disarmed. -/
theorem pbFull_secondSubmitted (p₁ p₂ : Addr) (l₁ l₂ : Len) (hl₁ : l₁ ≠ 0) :
    pbFull (secondSubmitted p₁ p₂ l₁ l₂) = true := (pbFull_iff _).mpr ⟨rfl, hl₁⟩

section
variable {s : State}

theorem BeforeAnyBegin.exec_pbStat (h : BeforeAnyBegin s) : exec .pbStat s = .next (respond s .ok 0x00000010) := by
  have hword : pbStatWord s.pb = 0x00000010 := by rw [h.pb]; decide
  rw [← hword]
  rfl

theorem BeforeAnyBegin.exec_capStat (h : BeforeAnyBegin s) : exec .capStat s = .next (respond s .ok 0x00000000) := by
  have hword : capStatWord s.cap = 0x00000000 := by rw [capStatWord, h.capArmed, h.capActive, h.dcAcc]; decide
  rw [← hword]
  rfl

/-- From an accumulator of 0 the take stays in the accumulator's range. -/
theorem BeforeAnyBegin.takeAcc_lt (h : BeforeAnyBegin s) : (takeAcc s).toNat < 2 ^ 20 :=
  exec_dcAcc_lt .capTake s (afterTake s) (exec_capTake_afterTake s) (by rw [h.dcAcc]; decide)

/-- Slot 1 is the cold slot, so it is the one a take corrects. -/
theorem BeforeAnyBegin.capTake_corrects (h : BeforeAnyBegin s) :
    (afterTake s).rsp = some ⟨.ok, 1⟩ ∧ (afterTake s).cap.dcAcc.toNat < 2 ^ 20 ∧
    (∀ i < 4096, capSample (afterTake s) true i = capSample s true i - dcEstimate (afterTake s).cap.dcAcc) ∧
    (∀ i < 4096, capSample (afterTake s) false i = capSample s false i) := by
  have hcold := capSample_afterTake_cold s
  have hhot := capSample_afterTake_hot s
  rw [h.capActive] at hcold hhot
  exact ⟨by rw [afterTake_rsp, h.capActive]; rfl, h.takeAcc_lt, hcold, hhot⟩

end

/-- Settles O13: the two events are dropped by disarmed units, and the submits fill slot 0, then slot 1. -/
theorem operationsBeforeAnyBegin : Obligations.OperationsBeforeAnyBegin := by
  intro s hpb harmed hactive hacc
  have h : BeforeAnyBegin s := ⟨hpb, harmed, hactive, hacc⟩
  have hpbArmed : s.pb.armed = false := by rw [hpb]; rfl
  refine ⟨exec_pbTick_disarmed s hpbArmed, fun data => exec_capDmaWr_disarmed data s harmed, h.exec_pbStat, h.exec_capStat,
    exec_pbEnd_disarmed s hpbArmed, exec_capEnd_disarmed s harmed, ⟨_, exec_capTake_afterTake s, h.capTake_corrects⟩,
    fun slot index => ⟨_, rfl, rfl⟩, fun p₁ p₂ p₃ l₁ l₂ l₃ he₁ he₂ he₃ hl₁ hl₂ hl₃ => ?_⟩
  have hfirst := exec_pbSubmit_first p₁ l₁ s hpb ((submitRefused_eq_false p₁ l₁).mpr ⟨hl₁, he₁⟩)
  have hsecond := exec_pbSubmit_second p₁ p₂ l₁ l₂ (respond { s with pb := firstSubmitted p₁ l₁ } .ok 0) rfl hl₁
    ((submitRefused_eq_false p₂ l₂).mpr ⟨hl₂, he₂⟩)
  refine ⟨_, _, hfirst, rfl, rfl, rfl, hsecond, rfl, rfl, rfl,
    exec_pbSubmit_waits_of_full p₃ l₃ _ hl₃ he₃ (pbFull_secondSubmitted p₁ p₂ l₁ l₂ hl₁), fun pin rate clk hrate => ?_⟩
  exact ⟨_, exec_pbBegin_accepted pin rate clk _ (by rwa [← Bool.not_eq_true, rateRefused_iff]), rfl⟩

/-! ## A `PB_SUBMIT` presented while disarmed and full (R120) -/

/-- The command `w` is on the port and is not ready, and the unit whose flip it waits for is disarmed. -/
structure SubmitHangs (s : State) (w : CmdWord) : Prop where
  disarmed : s.pb.armed = false
  port : s.cmdPort = some w
  notReady : cmdReady s w = false

/-- What a hang leaves as it was: the playback unit, the trace, and APP with the command it presents. -/
structure HangFrame (s t : State) : Prop where
  port : t.cmdPort = s.cmdPort
  app : t.app = s.app
  pb : t.pb = s.pb
  trace : t.trace = s.trace

theorem HangFrame.refl (s : State) : HangFrame s s := ⟨rfl, rfl, rfl, rfl⟩

theorem HangFrame.trans {s t u : State} (h₁ : HangFrame s t) (h₂ : HangFrame t u) : HangFrame s u :=
  ⟨h₂.port.trans h₁.port, h₂.app.trans h₁.app, h₂.pb.trans h₁.pb, h₂.trace.trans h₁.trace⟩

/-- Whether a command is ready depends on the playback unit alone. -/
theorem cmdReady_congr (s t : State) (w : CmdWord) (h : t.pb = s.pb) : cmdReady t w = cmdReady s w := by
  rw [cmdReady, cmdReady, h]

theorem SubmitHangs.of_frame {s t : State} {w : CmdWord} (h : SubmitHangs s w) (hframe : HangFrame s t) :
    SubmitHangs t w :=
  ⟨by rw [hframe.pb]; exact h.disarmed, hframe.port.trans h.port, (cmdReady_congr s t w hframe.pb).trans h.notReady⟩

/-- The tick port's turn does nothing while the unit is disarmed. -/
theorem runTick_disarmed (b : TickWord) (s : State) (h : s.pb.armed = false) : runTick b s = .next s := by
  rw [runTick_eq, exec_pbTick_disarmed s h, ite_self]

/-- The DMA port's turn is the capture unit's alone. -/
theorem runDma_hangFrame (d : DmaWord) (s t : State) (h : runDma d s = .next t) : HangFrame s t := by
  rcases runDma_cases d s t h with rfl | ⟨data, hbeat⟩
  · exact HangFrame.refl t
  · obtain ⟨hport, _⟩ := exec_event_port _ s t (.inr ⟨data, rfl⟩) hbeat
    obtain ⟨_, happ, _⟩ := exec_env _ s t hbeat
    have hpb := exec_capture_pb _ s t rfl hbeat
    obtain ⟨_, _, _, _, rfl⟩ := exec_frame_of_ne_pbTick (.capDmaWr data) s t nofun hbeat
    exact ⟨hport, happ, hpb, rfl⟩

/-- APP goes on presenting a command that was not accepted, and the start of a step touches neither the unit nor the
trace. -/
theorem stepStart_hangFrame (s : State) (w : CmdWord) (h : s.cmdPort = some w) : HangFrame s (stepStart s) := by
  obtain ⟨hport, happ⟩ := stepStart_cmdPort_of_some s w h
  exact ⟨hport.trans h.symm, happ, stepStart_pb s, stepStart_trace s⟩

/-- One step of the hang: the tick is dropped, the beat is the capture unit's, and the command is not ready. -/
theorem SubmitHangs.step_hangs {s : State} {w : CmdWord} (h : SubmitHangs s w) (hrst : (currentMove s).rst = false) :
    ∃ t, step s = .next t ∧ HangFrame s t ∧ t.rsp = none ∧ t.hw = s.hw.tail := by
  have hstart := stepStart_hangFrame s w h.port
  obtain ⟨t, hdma, _, _, hhw⟩ := runDma_goes_on (currentMove s).dma (stepStart s)
  have hframe := hstart.trans (runDma_hangFrame _ _ t hdma)
  have hwaits := h.of_frame hframe
  refine ⟨t, ?_, hframe, (runDma_rsp _ _ t hdma).trans (stepStart_rsp s), hhw.trans (stepStart_hw s)⟩
  rw [step_of_not_rst s hrst, runPorts, runTick_disarmed _ _ (h.of_frame hstart).disarmed, andThen_next, hdma, andThen_next,
    runCommand_of_not_ready t w hwaits.port hwaits.notReady]

/-- None of the next `n` steps brings a reset. -/
def NoReset (s : State) (n : Nat) : Prop := ∀ m ∈ s.hw.take n, m.rst = false

/-- With no move left in the list the step is quiet, so it brings no reset either. -/
theorem NoReset.now {s : State} {n : Nat} (h : NoReset s (n + 1)) : (currentMove s).rst = false := by
  cases hhw : s.hw with
  | nil => simp [currentMove, hhw]
  | cons m ms =>
    have hmove : m.rst = false := h m (by simp [hhw])
    simpa [currentMove, hhw] using hmove

theorem NoReset.later {s t : State} {n : Nat} (h : NoReset s (n + 1)) (hhw : t.hw = s.hw.tail) : NoReset t n := by
  intro m hm
  rw [hhw] at hm
  have hmem : m ∈ (s.hw.take (n + 1)).tail := by rwa [List.tail_take_eq_take_tail]
  exact h m (List.mem_of_mem_tail hmem)

/-- The hang lasts as long as no step resets. -/
theorem SubmitHangs.run_hangs (n : Nat) {s : State} {w : CmdWord} (h : SubmitHangs s w) (hrst : NoReset s n) :
    ∃ t, runSteps n s = .next t ∧ HangFrame s t ∧ (n ≠ 0 ∨ s.rsp = none → t.rsp = none) := by
  induction n generalizing s with
  | zero => exact ⟨s, rfl, HangFrame.refl s, fun hrsp => hrsp.resolve_left (absurd rfl)⟩
  | succ n ih =>
    obtain ⟨u, hstep, hu, hrsp, hhw⟩ := h.step_hangs hrst.now
    obtain ⟨t, hrun, ht, hsilent⟩ := ih (h.of_frame hu) (hrst.later hhw)
    exact ⟨t, by rw [runSteps_succ, hstep, andThen_next, hrun], hu.trans ht, fun _ => hsilent (.inr hrsp)⟩

/-- Settles O30: a full unit is not ready for the submit, and every step without reset keeps the hang. -/
theorem submitWhileDisarmedAndFullHangs : Obligations.SubmitWhileDisarmedAndFullHangs := by
  intro n s w ptr len hdisarmed hfull hport hdec hlen heven hrst
  have hok := (submitRefused_eq_false ptr len).mpr ⟨hlen, heven⟩
  have hhangs : SubmitHangs s w := ⟨hdisarmed, hport, (cmdReady_eq_false_iff s w).mpr ⟨ptr, len, hdec, hok, hfull⟩⟩
  obtain ⟨t, hrun, hframe, hsilent⟩ := hhangs.run_hangs n hrst
  exact ⟨t, hrun, hframe.port.trans hport, hframe.app, hframe.pb, hframe.trace, fun hn => hsilent (.inl hn)⟩

end Sys2Proof.Machine
